-- ==== Sys2Proof/Word.lean ====
section
/-! DEFINITION. The 32-bit word of the ToyVM core: `spec/00_scope.md` R5 (`XLEN`), R6 (`i32`). -/

namespace Sys2Proof

/-- `i32` of R6: a signed 32-bit integer kept as 32 bits in two's complement. `toInt` of R7 is `BitVec.toInt`. -/
abbrev Word := BitVec 32

end Sys2Proof
end

