-- ==== Sys2Proof/Config.lean ====
section
/-! DEFINITION. The parameters of the hardware (`spec/00_scope.md` R5) and the names its encoding speaks of:
opcodes (R2), operand kinds (R48), tag maps (R51). -/

namespace Sys2Proof

/-- The twelve opcodes of R2, in the row order of the opcode map R52. -/
inductive Opcode
  | call | ret | cmp | jne | push | pop | set | copy | add | dec | print | exit
  deriving DecidableEq, Repr

/-- The four ways an operand word is used (R48). -/
inductive OperandKind
  | registerIndex | constant | absoluteAddress | relativeOffset
  deriving DecidableEq, Repr

/-- The parameter `TAG` of R5 and R51: the tag word of each opcode. -/
structure Tags where
  call : Word
  ret : Word
  cmp : Word
  jne : Word
  push : Word
  pop : Word
  set : Word
  copy : Word
  add : Word
  dec : Word
  print : Word
  exit : Word
  deriving DecidableEq, Repr

/-- The configuration of one execution (R5, R89): constant while the machine runs. -/
structure Config where
  /-- `STACK_BASE`: the first index of the stack region. -/
  stackBase : Nat
  /-- `LEN`: the number of words of the memory. -/
  len : Nat
  /-- `TAG`: a design-time constant of the block. -/
  tags : Tags
  deriving DecidableEq, Repr

/-- The largest `LEN` the spec admits (R5, D11). -/
def Config.maxLen : Nat := 2 ^ 31 - 1

/-- The launch premise `LP-SIZE` of R119. -/
abbrev Config.lpSize (c : Config) : Prop := c.stackBase ≤ c.len ∧ c.len ≤ Config.maxLen

end Sys2Proof
end

