-- ==== Sys2Proof/Syntax.lean ====
section
/-! DEFINITION. The instructions: one constructor per row of `spec/opcode_table.json` (`spec/30_encoding.md` R52). -/

namespace Sys2Proof

/-- An instruction as decoded: its opcode and its operand words, in encoding order (R45, R52). An operand is the
whole 32-bit word (R46, R48): a register-index operand is checked when the instruction runs (R54, R62), so an
instruction may hold any word there. -/
inductive Instr
  /-- `CALL addr` (R67). -/
  | call (addr : Word)
  /-- `RET` (R68). -/
  | ret
  /-- `CMP r1, c` (R69). -/
  | cmp (r1 c : Word)
  /-- `JNE offset` (R70). -/
  | jne (offset : Word)
  /-- `PUSH r` (R73). -/
  | push (r : Word)
  /-- `POP r` (R74). -/
  | pop (r : Word)
  /-- `SET r, c` (R77). -/
  | set (r c : Word)
  /-- `COPY rSrc, rDst` (R78): the source is the first operand (R81). -/
  | copy (rSrc rDst : Word)
  /-- `ADD rDst, rSrc` (R79): the destination is the first operand (R81). -/
  | add (rDst rSrc : Word)
  /-- `DEC r` (R80). -/
  | dec (r : Word)
  /-- `PRINT r` (R84). -/
  | print (r : Word)
  /-- `EXIT` (R86). -/
  | exit
  deriving DecidableEq, Repr

end Sys2Proof
end

