-- ==== Sys2Proof/WellFormed.lean ====
section
/-! DEFINITION. Well-formed instructions: every register-index operand names one of the three registers
(`spec/30_encoding.md` R48, `spec/40_step_cycle.md` R62). -/

namespace Sys2Proof

/-- R48: as a signed integer the operand is 0, 1 or 2. -/
def registerIndexOk (w : Word) : Bool := decide (0 ≤ w.toInt) && decide (w.toInt < 3)

/-- Every register-index operand (R52's table of operand kinds) is in range. Constants, addresses and offsets are
never checked (R54). -/
def Instr.wellFormed : Instr → Bool
  | .call _ => true
  | .ret => true
  | .cmp r1 _ => registerIndexOk r1
  | .jne _ => true
  | .push r => registerIndexOk r
  | .pop r => registerIndexOk r
  | .set r _ => registerIndexOk r
  | .copy rSrc rDst => registerIndexOk rSrc && registerIndexOk rDst
  | .add rDst rSrc => registerIndexOk rDst && registerIndexOk rSrc
  | .dec r => registerIndexOk r
  | .print r => registerIndexOk r
  | .exit => true

end Sys2Proof
end

