-- ==== Sys2Proof/Decode.lean ====
section
/-! DEFINITION. Decoding and encoding: `spec/30_encoding.md` R44 to R56, `spec/40_step_cycle.md` R60, R61. -/

namespace Sys2Proof

/-- The opcodes in the row order of R52. -/
def Opcode.all : List Opcode :=
  [.call, .ret, .cmp, .jne, .push, .pop, .set, .copy, .add, .dec, .print, .exit]

/-- The operand kinds of each opcode, in operand order (R52). -/
def Opcode.kinds : Opcode → List OperandKind
  | .call => [.absoluteAddress]
  | .ret => []
  | .cmp => [.registerIndex, .constant]
  | .jne => [.relativeOffset]
  | .push => [.registerIndex]
  | .pop => [.registerIndex]
  | .set => [.registerIndex, .constant]
  | .copy => [.registerIndex, .registerIndex]
  | .add => [.registerIndex, .registerIndex]
  | .dec => [.registerIndex]
  | .print => [.registerIndex]
  | .exit => []

/-- The spec's default tag map: the opcodes numbered from 0 in table order (R51, D1; log 3). -/
def Tags.default : Tags where
  call := 0
  ret := 1
  cmp := 2
  jne := 3
  push := 4
  pop := 5
  set := 6
  copy := 7
  add := 8
  dec := 9
  print := 10
  exit := 11

/-- `TAG.M` of R51. -/
def Tags.tagOf (T : Tags) : Opcode → Word
  | .call => T.call
  | .ret => T.ret
  | .cmp => T.cmp
  | .jne => T.jne
  | .push => T.push
  | .pop => T.pop
  | .set => T.set
  | .copy => T.copy
  | .add => T.add
  | .dec => T.dec
  | .print => T.print
  | .exit => T.exit

/-- The launch premise `LP-TAG` of R119: the map is injective and 99 is not in its range (R5, R51). -/
abbrev Tags.admissible (T : Tags) : Prop :=
  (Opcode.all.map T.tagOf).Nodup ∧ (99 : Word) ∉ Opcode.all.map T.tagOf

/-- Stage 2 of the step (R60): the opcode whose tag equals the word. An admissible map has at most one; for a map
that is not injective the first row of the table is taken (DESIGN CHOICE, log 3). -/
def Tags.opcodeOf (T : Tags) (w : Word) : Option Opcode :=
  Opcode.all.find? fun m => T.tagOf m == w

/-- Why words are no instruction. -/
inductive DecodeError
  /-- The word number `j` of the instruction (0 is the tag) is not there (R59, R61). -/
  | missing (j : Nat)
  /-- The tag word equals none of the twelve tags (R53, R60). -/
  | unknownTag (w : Word)
  deriving DecidableEq, Repr

/-- Format `F1` (R45): the one operand word. -/
def readOne (get : Nat → Option Word) (build : Word → Instr) : Except DecodeError Instr :=
  match get 1 with
  | none => .error (.missing 1)
  | some a => .ok (build a)

/-- Format `F2` (R45): the two operand words, in ascending order (R61). -/
def readTwo (get : Nat → Option Word) (build : Word → Word → Instr) : Except DecodeError Instr :=
  match get 1 with
  | none => .error (.missing 1)
  | some a =>
    match get 2 with
    | none => .error (.missing 2)
    | some b => .ok (build a b)

/-- The operands of an opcode, read by its format (R45, R47, R52): exactly the words the format declares. -/
def readOperands (m : Opcode) (get : Nat → Option Word) : Except DecodeError Instr :=
  match m with
  | .call => readOne get .call
  | .ret => .ok .ret
  | .cmp => readTwo get .cmp
  | .jne => readOne get .jne
  | .push => readOne get .push
  | .pop => readOne get .pop
  | .set => readTwo get .set
  | .copy => readTwo get .copy
  | .add => readTwo get .add
  | .dec => readOne get .dec
  | .print => readOne get .print
  | .exit => .ok .exit

/-- Stages 1 to 3 of the step (R59 to R61) over a reader: `get j` is the word `j` places after the tag, `none` where
there is none. Reads the tag, then the operands that the tag's format declares, and nothing else (R47, R50). -/
def decodeWith (T : Tags) (get : Nat → Option Word) : Except DecodeError Instr :=
  match get 0 with
  | none => .error (.missing 0)
  | some w =>
    match T.opcodeOf w with
    | none => .error (.unknownTag w)
    | some m => readOperands m get

/-- The opcode of an instruction. -/
def Instr.opcode : Instr → Opcode
  | .call _ => .call
  | .ret => .ret
  | .cmp _ _ => .cmp
  | .jne _ => .jne
  | .push _ => .push
  | .pop _ => .pop
  | .set _ _ => .set
  | .copy _ _ => .copy
  | .add _ _ => .add
  | .dec _ => .dec
  | .print _ => .print
  | .exit => .exit

/-- The operand words of an instruction, in encoding order (R52). -/
def Instr.operands : Instr → List Word
  | .call addr => [addr]
  | .ret => []
  | .cmp r1 c => [r1, c]
  | .jne offset => [offset]
  | .push r => [r]
  | .pop r => [r]
  | .set r c => [r, c]
  | .copy rSrc rDst => [rSrc, rDst]
  | .add rDst rSrc => [rDst, rSrc]
  | .dec r => [r]
  | .print r => [r]
  | .exit => []

/-- The total word count of an instruction, 1 + operand count (R45). -/
def Instr.size (i : Instr) : Nat := 1 + i.operands.length

/-- The instruction at the head of a list of words and the words after it, or why there is none. -/
def decode (T : Tags) (ws : List Word) : Except DecodeError (Instr × List Word) :=
  match decodeWith T (fun j => ws[j]?) with
  | .error e => .error e
  | .ok i => .ok (i, ws.drop i.size)

/-- The words of an instruction (R56): its tag, then its operands. -/
def encode (T : Tags) (i : Instr) : List Word := T.tagOf i.opcode :: i.operands

/-- The three words that a row of `spec/opcode_table.json` numbers as bits 31..0, 63..32 and 95..64; the bits from
`nbits` on are 0. -/
def tableWords (nbits w : Nat) : List Word :=
  [BitVec.ofNat 32 (w % 2 ^ nbits), BitVec.ofNat 32 (w % 2 ^ nbits / 2 ^ 32), BitVec.ofNat 32 (w % 2 ^ nbits / 2 ^ 64)]

/-- The instruction the decoder reads from an opcode-table word, under the default tag map. -/
def decodeTableWord (nbits w : Nat) : Option Instr :=
  match decode Tags.default (tableWords nbits w) with
  | .ok (i, _) => some i
  | .error _ => none

end Sys2Proof
end

