-- ==== Sys2Proof/Machine/State.lean ====
section
/-! DEFINITION. The state of the machine (`spec/10_state.md` R10), its reset (R27), and the reasons a step of the
model can stop. -/

namespace Sys2Proof.Machine

/-- The name of a register: `r0`, `r1`, `r2` in listings (R11). -/
inductive Reg
  | r0 | r1 | r2
  deriving DecidableEq, Repr

/-- The register file: exactly three 32-bit slots (R11). -/
structure Regs where
  x0 : Word
  x1 : Word
  x2 : Word
  deriving DecidableEq, Repr

/-- What kind of state the machine is in (R23). -/
inductive Status
  | running | exited | faulted
  deriving DecidableEq, Repr

/-- The name of a fault, `NONE` included (R98). -/
inductive FaultCode
  | none | decodeFault | stackUnderflow | stackOverflow | registerIndex | fetchOutOfRange
  deriving DecidableEq, Repr

/-- The fault record `(fcode, fa, fb)` (R24). -/
structure FaultRecord where
  fcode : FaultCode
  fa : Int
  fb : Int
  deriving DecidableEq, Repr

/-- One word of memory at a word index. The spec has no byte address (R28, R33; log 7). -/
abbrev Cell := Nat × Word

/-- The storage behind the memory port (R28, R90), as the list of its words that are not `Memory.unlisted`, indices
strictly rising. The engine reaches the words in `[0, LEN)` only; storage beyond a `LEN` that was lowered keeps its
words (log 12). -/
abbrev Memory := List Cell

/-- The complete state of R10, with the configuration it runs under (R5; log 4). -/
structure State where
  /-- The register file `x[0..2]` (R11). -/
  regs : Regs
  /-- The instruction pointer, an exact integer (R15, R18). -/
  ip : Int
  /-- The stack pointer: the index of the next free stack slot (R19; log 8). -/
  sp : Nat
  /-- The comparison flag (R22). -/
  flag : Bool
  /-- The memory (R28). -/
  mem : Memory
  /-- Running, exited or faulted (R23). -/
  status : Status
  /-- The fault record (R24). -/
  fault : FaultRecord
  /-- The output history, oldest first (R26). -/
  out : List Word
  /-- `STACK_BASE`, `LEN` and `TAG` (R5, R25): written by no step. -/
  cfg : Config
  deriving DecidableEq, Repr

/-- Reasons for which a step of the model stops without a next state. The five faults of R98 are not among them:
they are next states (R104; log 6). -/
inductive Fault
  /-- RET or POP reads the popped word at an index that is not below `LEN`: an access to an address that does not
  exist (R28, R32). Raised by `popThen` only, in states with `STACK_BASE < sp` and `LEN < sp`, which no run reaches
  (R20, R97). Safe (log 6). -/
  | outsideMemory (index : Nat)
  deriving DecidableEq, Repr

/-- Reasons for which a step has no meaning in the model. -/
inductive Refusal
  /-- An instruction that has no meaning yet; no arm of `exec` raises it. Safe. -/
  | notModelled (mnemonic : String)
  deriving DecidableEq, Repr

/-- The state at reset release (R27, R114): the engine's own state at its reset values, `sp` at the sampled
`STACK_BASE`, and the memory exactly as the host left it (R116). -/
def State.release (cfg : Config) (mem : Memory) : State where
  regs := ⟨0, 0, 0⟩
  ip := 0
  sp := cfg.stackBase
  flag := false
  mem := mem
  status := .running
  fault := ⟨.none, 0, 0⟩
  out := []
  cfg := cfg

/-- The configuration `State.reset` is released with. The spec gives none: `LEN` is the largest the spec admits and
`STACK_BASE` leaves both regions room (DESIGN CHOICE, unsafe, log 1); `TAG` is the spec's default (R51, log 3). -/
def resetConfig : Config where
  stackBase := 2 ^ 30
  len := Config.maxLen
  tags := Tags.default

/-- The machine right after reset (R27), with nothing loaded. -/
def State.reset : State := State.release resetConfig []

end Sys2Proof.Machine
end

