-- ==== Sys2Proof/Machine/Flags.lean ====
section
/-! DEFINITION. The comparison flag: the only condition code of the machine (`spec/10_state.md` R22). -/

namespace Sys2Proof.Machine

/-- The value CMP gives the flag: equality of two words (R69). -/
def compareFlag (a b : Word) : Bool := a == b

/-- The flag is assigned, to true or to false (R22, `90_conflicts.md` C2). -/
def State.setFlag (s : State) (b : Bool) : State := { s with flag := b }

/-- Whether JNE jumps: when the flag is false (R70, `90_conflicts.md` C4). -/
def jneTaken (flag : Bool) : Bool := !flag

end Sys2Proof.Machine
end

