-- ==== Sys2Proof/Machine/Operands.lean ====
section
/-! DEFINITION. The four operand forms (`spec/30_encoding.md` R48) and the conversions between words and integers
(`spec/00_scope.md` R7). -/

namespace Sys2Proof.Machine

/-- `wrap32` of R7: the word congruent to an integer modulo `2^32`. -/
def wrap32 (n : Int) : Word := BitVec.ofInt 32 n

/-- `sext_32` of R7: a word as the signed integer it stands for, where it becomes an index. -/
def sext32 (w : Word) : Int := w.toInt

/-- The number of a register, 0, 1 or 2 (R11). -/
def Reg.num : Reg → Int
  | .r0 => 0
  | .r1 => 1
  | .r2 => 2

/-- The register that a register-index operand selects, none where the operand is out of `[0, 3)` (R48, R62). -/
def Reg.ofWord? (w : Word) : Option Reg :=
  if w.toInt = 0 then some .r0
  else if w.toInt = 1 then some .r1
  else if w.toInt = 2 then some .r2
  else none

/-- An absolute-address operand as the new `ip` (R48): not checked here (R17). -/
def absoluteTarget (addr : Word) : Int := sext32 addr

/-- A relative-offset operand: added to the index of the instruction's own tag word, exactly (R18, R48). -/
def relativeTarget (ip : Int) (offset : Word) : Int := ip + sext32 offset

end Sys2Proof.Machine
end

