-- ==== Sys2Proof/Machine/Ops.lean ====
section
/-! DEFINITION. The operations the instructions share: memory (`spec/20_memory.md`), registers, the two pointers,
fault entry (`spec/60_exceptions.md` R104), and stages 4 and 5 of the step (`spec/40_step_cycle.md` R62, R63). -/

namespace Sys2Proof.Machine

/-- What a word that the list does not hold reads as. The spec leaves `MEM0` to the host (R5, D19): with 0 here the
lists stand for every memory, and only the memory of `State.reset` is a choice (DESIGN CHOICE, unsafe, log 2). -/
def Memory.unlisted : Word := 0

/-- The word at an index. -/
def Memory.read : Memory → Nat → Word
  | [], _ => Memory.unlisted
  | (k, v) :: m, a => if k = a then v else Memory.read m a

/-- The memory without a listed word for an index. -/
def Memory.erase : Memory → Nat → Memory
  | [], _ => []
  | (k, v) :: m, a => if k = a then Memory.erase m a else (k, v) :: Memory.erase m a

/-- The memory with a listed word put at its place by index. -/
def Memory.insert : Memory → Nat → Word → Memory
  | [], a, w => [(a, w)]
  | (k, v) :: m, a, w => if a < k then (a, w) :: (k, v) :: m else (k, v) :: Memory.insert m a w

/-- `mem[a] <- w`, in canonical form: a word equal to what an unlisted index reads as is not listed. -/
def Memory.write (m : Memory) (a : Nat) (w : Word) : Memory :=
  if w = Memory.unlisted then Memory.erase m a else Memory.insert (Memory.erase m a) a w

/-- Consecutive words written from an index on. -/
def Memory.load (m : Memory) (a : Nat) : List Word → Memory
  | [] => m
  | w :: ws => Memory.load (Memory.write m a w) (a + 1) ws

/-- Whether every listed index is at least `n`, the indices rise strictly, and no listed word is the unlisted one. -/
def Memory.wfFrom : Nat → Memory → Bool
  | _, [] => true
  | n, (k, v) :: m => decide (n ≤ k) && decide (v ≠ Memory.unlisted) && Memory.wfFrom (k + 1) m

/-- The canonical form of a memory: equal memories are equal lists. -/
def Memory.wf (m : Memory) : Bool := Memory.wfFrom 0 m

/-- Whether every listed index is below `n`. -/
def Memory.within (m : Memory) (n : Nat) : Bool := m.all fun c => decide (c.1 < n)

/-- `MemRead(a, 1)` of R8 and R32: the word at an index, none where the index is not valid. -/
def State.memRead (s : State) (a : Int) : Option Word :=
  if 0 ≤ a ∧ a < s.cfg.len then some (Memory.read s.mem a.toNat) else none

/-- `MemWrite(a, 1, w)` of R8 and R32. Its callers have checked that the index is valid (R63). -/
def State.memWrite (s : State) (a : Nat) (w : Word) : State := { s with mem := Memory.write s.mem a w }

/-- Read of a register (R8). -/
def Regs.read (x : Regs) : Reg → Word
  | .r0 => x.x0
  | .r1 => x.x1
  | .r2 => x.x2

/-- Write of a register (R8). -/
def Regs.write (x : Regs) (r : Reg) (w : Word) : Regs :=
  match r with
  | .r0 => { x with x0 := w }
  | .r1 => { x with x1 := w }
  | .r2 => { x with x2 := w }

/-- `x[r] <- w` (R8). -/
def State.writeReg (s : State) (r : Reg) (w : Word) : State := { s with regs := Regs.write s.regs r w }

/-- `ip <- t` (R8): the target is not checked here. -/
def State.jump (s : State) (t : Int) : State := { s with ip := t }

/-- `ip <- ip + n` (R16). -/
def State.advance (s : State) (n : Nat) : State := s.jump (s.ip + n)

/-- `Emit(w)` (R8): the output history grows by one value (R26). -/
def State.emit (s : State) (w : Word) : State := { s with out := s.out ++ [w] }

/-- `halt` (R8, R86). -/
def State.halt (s : State) : State := { s with status := .exited }

/-- `raise F(a, b)` (R8, R104): the status and the fault record are written, and nothing else. Nothing returns from
it (R107). -/
def State.raise (s : State) (f : FaultCode) (a b : Int) : State :=
  { s with status := .faulted, fault := ⟨f, a, b⟩ }

/-- The push of R19: the word goes to `mem[sp]`, then `sp` grows by one. -/
def State.push (s : State) (w : Word) : State := { s.memWrite s.sp w with sp := s.sp + 1 }

/-- The pop of R19, its pointer half: `sp` shrinks by one. -/
def State.dropTop (s : State) : State := { s with sp := s.sp - 1 }

/-- The outcome of a step of this machine. -/
abbrev Result := Host.Outcome State Fault Refusal

/-- Stage 4 (R62) for one register-index operand: go on with the register it selects, or raise `RegisterIndex` with
the operand as a signed integer (R102), where the original went on undefined (R112). -/
def regThen (w : Word) (s : State) (k : Reg → Result) : Result :=
  match Reg.ofWord? w with
  | some r => k r
  | none => .next (s.raise .registerIndex w.toInt s.ip)

/-- Stage 5 (R63) of CALL and PUSH, then the push: `StackOverflow` when `sp >= LEN` (R101), where the original went on
undefined (R112), else go on with the word pushed. -/
def pushThen (w : Word) (s : State) (k : State → Result) : Result :=
  if s.cfg.len ≤ s.sp then .next (s.raise .stackOverflow s.sp s.ip) else k (s.push w)

/-- Stage 5 (R63) of RET and POP, then the pop: `StackUnderflow` when `sp <= STACK_BASE` (R100), where the original went
on undefined (R112), else go on with the popped word. The slot keeps its word (R68, R74). -/
def popThen (s : State) (k : Word → State → Result) : Result :=
  if s.sp ≤ s.cfg.stackBase then .next (s.raise .stackUnderflow s.sp s.ip)
  else
    match s.memRead (s.sp - 1 : Nat) with
    | some w => k w s.dropTop
    | none => .fault (.outsideMemory (s.sp - 1))

end Sys2Proof.Machine
end

