-- ==== Sys2Proof/Machine/ControlFlow.lean ====
section
/-! DEFINITION. CALL, RET, CMP, JNE: `spec/41_call_compare_branch.md` R67 to R70. -/

namespace Sys2Proof.Machine

/-- R67. The value pushed is the index after the CALL; the target is absolute and unchecked. -/
def execCall (addr : Word) (s : State) : Result :=
  pushThen (wrap32 (s.ip + 2)) s fun t => .next (t.jump (absoluteTarget addr))

/-- R68. Whatever word is on top becomes `ip`. -/
def execRet (s : State) : Result :=
  popThen s fun w t => .next (t.jump (absoluteTarget w))

/-- R69. -/
def execCmp (r1 c : Word) (s : State) : Result :=
  regThen r1 s fun q => .next ((s.setFlag (compareFlag (s.regs.read q) c)).advance 3)

/-- R70. The offset is relative to the JNE's own tag; the jump is taken when the flag is false. -/
def execJne (offset : Word) (s : State) : Result :=
  .next (if jneTaken s.flag then s.jump (relativeTarget s.ip offset) else s.advance 2)

end Sys2Proof.Machine
end

