-- ==== Sys2Proof/Machine/RegisterOps.lean ====
section
/-! DEFINITION. SET, COPY, ADD, DEC: `spec/43_register_ops.md` R77 to R83. -/

namespace Sys2Proof.Machine

/-- R77. -/
def execSet (r c : Word) (s : State) : Result :=
  regThen r s fun q => .next ((s.writeReg q c).advance 3)

/-- R78: source first (R81). -/
def execCopy (rSrc rDst : Word) (s : State) : Result :=
  regThen rSrc s fun a => regThen rDst s fun d => .next ((s.writeReg d (s.regs.read a)).advance 3)

/-- R79: destination first (R81); the exact sum is wrapped (R83). -/
def execAdd (rDst rSrc : Word) (s : State) : Result :=
  regThen rDst s fun d => regThen rSrc s fun a =>
    .next ((s.writeReg d (wrap32 ((s.regs.read d).toInt + (s.regs.read a).toInt))).advance 3)

/-- R80: the exact difference is wrapped (R83). -/
def execDec (r : Word) (s : State) : Result :=
  regThen r s fun q => .next ((s.writeReg q (wrap32 ((s.regs.read q).toInt - 1))).advance 2)

end Sys2Proof.Machine
end

