-- ==== Sys2Proof/Machine/Stack.lean ====
section
/-! DEFINITION. PUSH, POP: `spec/42_stack.md` R73, R74. -/

namespace Sys2Proof.Machine

/-- R73. The register index is checked before the stack bound (R65). -/
def execPush (r : Word) (s : State) : Result :=
  regThen r s fun q => pushThen (s.regs.read q) s fun t => .next (t.advance 2)

/-- R74. The register index is checked before the stack bound (R65). -/
def execPop (r : Word) (s : State) : Result :=
  regThen r s fun q => popThen s fun w t => .next ((t.writeReg q w).advance 2)

end Sys2Proof.Machine
end

