-- ==== Sys2Proof/Machine/System.lean ====
section
/-! DEFINITION. PRINT, EXIT: `spec/44_system.md` R84 to R86. -/

namespace Sys2Proof.Machine

/-- R84: one value appended to the output history (R85). -/
def execPrint (r : Word) (s : State) : Result :=
  regThen r s fun q => .next ((s.emit (s.regs.read q)).advance 2)

/-- R86: `ip` stays at the EXIT. -/
def execExit (s : State) : Result := .next s.halt

end Sys2Proof.Machine
end

