-- ==== Sys2Proof/Machine/Dispatch.lean ====
section
/-! DEFINITION. Stages 4 to 6 of the step (`spec/40_step_cycle.md` R62 to R64): one meaning per instruction. -/

namespace Sys2Proof.Machine

def exec (i : Instr) (s : State) : Host.Outcome State Fault Refusal :=
  match i with
  | .call addr => Sys2Proof.Machine.execCall addr s
  | .ret => Sys2Proof.Machine.execRet s
  | .cmp r1 c => Sys2Proof.Machine.execCmp r1 c s
  | .jne offset => Sys2Proof.Machine.execJne offset s
  | .push r => Sys2Proof.Machine.execPush r s
  | .pop r => Sys2Proof.Machine.execPop r s
  | .set r c => Sys2Proof.Machine.execSet r c s
  | .copy rSrc rDst => Sys2Proof.Machine.execCopy rSrc rDst s
  | .add rDst rSrc => Sys2Proof.Machine.execAdd rDst rSrc s
  | .dec r => Sys2Proof.Machine.execDec r s
  | .print r => Sys2Proof.Machine.execPrint r s
  | .exit => Sys2Proof.Machine.execExit s

end Sys2Proof.Machine
end

