-- ==== Sys2Proof/Machine/Fetch.lean ====
section
/-! DEFINITION. Stages 1 to 3 of the step: `spec/40_step_cycle.md` R59 to R61. -/

namespace Sys2Proof.Machine

/-- The word `j` places after `ip`, none where that index is not valid (R47, R59, R61). -/
def State.fetchWord (s : State) (j : Nat) : Option Word := s.memRead (s.ip + j)

/-- The instruction at `ip`, or why there is none. -/
def State.fetch (s : State) : Except DecodeError Instr := decodeWith s.cfg.tags s.fetchWord

/-- The fault that a failed fetch raises: `FetchOutOfRange(ip + j, ip)` (R59, R61, R103) or `DecodeFault(value, ip)`
(R60, R99). The original detected the second only (R112). -/
def State.raiseFetch (s : State) : DecodeError → State
  | .missing j => s.raise .fetchOutOfRange (s.ip + j) s.ip
  | .unknownTag w => s.raise .decodeFault w.toInt s.ip

/-- The state in which the next fetch reads the three given words under the default tag map. Everything else that
the fetch needs (a running machine, a valid `ip`, a `LEN` that takes in the three words) holds already in
`State.reset` and is only put in place elsewhere (log 10). -/
def State.withWordsAtIp (s : State) (ws : List Word) : State :=
  { s with
    ip := s.ip.toNat
    mem := Memory.load s.mem s.ip.toNat ws
    status := .running
    cfg := { s.cfg with len := max s.cfg.len (s.ip.toNat + 3), tags := Tags.default } }

end Sys2Proof.Machine
end

