-- ==== Sys2Proof/Machine/Step.lean ====
section
/-! DEFINITION. The step function: `spec/40_step_cycle.md` R57 to R66. -/

namespace Sys2Proof.Machine

/-- One step (R57): fetch and decode (stages 1 to 3), then check and execute (stages 4 to 6), or the fault that comes
first (R65). A terminal state has no step: nothing changes (R23, R58; log 5). -/
def step (s : State) : Host.Outcome State Fault Refusal :=
  match s.status with
  | .running =>
    match s.fetch with
    | .ok i => exec i s
    | .error e => .next (s.raiseFetch e)
  | .exited => .next s
  | .faulted => .next s

/-- The state with an opcode-table word stored where `step` fetches its next instruction (log 10). -/
def State.withFetchWord (s : State) (nbits w : Nat) : State := s.withWordsAtIp (tableWords nbits w)

end Sys2Proof.Machine
end

