-- ==== Sys2Proof/Machine/HostPort.lean ====
section
/-! DEFINITION. The interfaces of the block: `spec/50_interfaces.md` (ports, the host's moves, what it may observe)
and reset as the host's move (`spec/70_reset_and_hazards.md`). Derived views of the state: none of this is state. -/

namespace Sys2Proof.Machine

/-- The code of `status` at its 2-bit port (R25). -/
def Status.port : Status → BitVec 2
  | .running => 0
  | .exited => 1
  | .faulted => 2

/-- The code of `fcode` at its 3-bit port (R25, R98). -/
def FaultCode.port : FaultCode → BitVec 3
  | .none => 0
  | .decodeFault => 1
  | .stackUnderflow => 2
  | .stackOverflow => 3
  | .registerIndex => 4
  | .fetchOutOfRange => 5

/-- `fa` or `fb` at its 33-bit signed port (R25). -/
def payloadPort (n : Int) : BitVec 33 := BitVec.ofInt 33 n

/-- One transaction of the block with its environment (R88, R90, R92). -/
inductive Transaction
  /-- A read of the memory port. -/
  | read (maddr : Nat) (mrdata : Word)
  /-- A write of the memory port. -/
  | write (maddr : Nat) (mwdata : Word)
  /-- A value of the output port. -/
  | output (odata : Word)
  deriving DecidableEq, Repr

/-- The read of one instruction word, where its index is valid (R90: nothing else reaches the port). -/
def State.fetchRead (s : State) (j : Nat) : List Transaction :=
  match s.fetchWord j with
  | some w => [.read (s.ip + j).toNat w]
  | none => []

/-- The reads of stages 1 to 3 (R91): the tag; for a known opcode then its operands up to the first that is missing. -/
def State.fetchReads (s : State) : List Transaction :=
  match s.fetchWord 0 with
  | none => []
  | some w =>
    s.fetchRead 0 ++
      match s.cfg.tags.opcodeOf w with
      | none => []
      | some m =>
        match m.kinds.length with
        | 0 => []
        | 1 => s.fetchRead 1
        | _ => s.fetchRead 1 ++ s.fetchRead 2

/-- The write of CALL and PUSH (R91), where `sp` is below `LEN`. -/
def State.pushAccess (s : State) (w : Word) : List Transaction :=
  if s.sp < s.cfg.len then [.write s.sp w] else []

/-- The read of RET and POP (R91), where the stack is not empty. -/
def State.popAccess (s : State) : List Transaction :=
  if s.cfg.stackBase < s.sp then
    match s.memRead (s.sp - 1 : Nat) with
    | some w => [.read (s.sp - 1) w]
    | none => []
  else []

/-- The transactions of stage 6 (R91, R92): none where a check of stage 4 or 5 fails. -/
def executeAccess (i : Instr) (s : State) : List Transaction :=
  match i with
  | .call _ => s.pushAccess (wrap32 (s.ip + 2))
  | .ret => s.popAccess
  | .push r =>
    match Reg.ofWord? r with
    | some q => s.pushAccess (s.regs.read q)
    | none => []
  | .pop r =>
    match Reg.ofWord? r with
    | some _ => s.popAccess
    | none => []
  | .print r =>
    match Reg.ofWord? r with
    | some q => [.output (s.regs.read q)]
    | none => []
  | .cmp _ _ | .jne _ | .set _ _ | .copy _ _ | .add _ _ | .dec _ | .exit => []

/-- The transactions of the step from a state, in the order issued (R40, R91, R92). -/
def State.transactions (s : State) : List Transaction :=
  match s.status with
  | .running =>
    s.fetchReads ++
      match s.fetch with
      | .ok i => executeAccess i s
      | .error _ => []
  | .exited => []
  | .faulted => []

/-- What the host can see (R94, R96): status, fault record and output at any time, the memory only when no execution
runs (R95). Registers, `flag`, `ip` and `sp` have no port. -/
structure Observation where
  status : Status
  fault : FaultRecord
  out : List Word
  mem : Option Memory
  deriving DecidableEq, Repr

/-- The host's view of a state (R94 to R96). After a run the view of the memory is the whole storage, also the words at
or above `LEN` that an execution with a larger `LEN` left: R96 says the final contents of the memory, the caller's own
buffer, and R28 gives the memory `LEN` words, neither saying whether storage beyond them is in view (DESIGN CHOICE,
unsafe, log 16). -/
def State.observe (s : State) : Observation where
  status := s.status
  fault := s.fault
  out := s.out
  mem :=
    match s.status with
    | .running => none
    | .exited => some s.mem
    | .faulted => some s.mem

/-- The host stores a word in the memory of a released machine: no move while it runs (R95, `LP-HOST` of R119), and
only at a valid index. That it is a move at all after the end of a run, before reset is asserted, is the model's choice:
R95 lists reads there and the assertion of reset, neither allowing nor forbidding a store (DESIGN CHOICE, unsafe,
log 15). Before reset release the host's move is `UnderReset.store`. -/
def State.hostStore (s : State) (a : Nat) (w : Word) : Option State :=
  match s.status with
  | .running => none
  | .exited => if a < s.cfg.len then some (s.memWrite a w) else none
  | .faulted => if a < s.cfg.len then some (s.memWrite a w) else none

/-- The block while reset is asserted (R114): the engine takes no step and the execution is lost, so what there is is
the memory, which reset does not touch (R116), and the tag map fixed in the block (R89). `LEN` is not sampled yet, so
no index is out of range before release. -/
structure UnderReset where
  mem : Memory
  tags : Tags
  deriving DecidableEq, Repr

/-- Reset is asserted, in whatever state the machine is (R95, R114). -/
def State.assertReset (s : State) : UnderReset where
  mem := s.mem
  tags := s.cfg.tags

/-- Before reset release the host loads a word of the memory (R95). -/
def UnderReset.store (u : UnderReset) (a : Nat) (w : Word) : UnderReset := { u with mem := Memory.write u.mem a w }

/-- Before reset release the host loads consecutive words of the memory (R95, R118). -/
def UnderReset.load (u : UnderReset) (a : Nat) (ws : List Word) : UnderReset := { u with mem := Memory.load u.mem a ws }

/-- Reset is released with the `STACK_BASE` and `LEN` that the host drives, which the engine samples (R89, R114). The
storage is not touched (R116): the words at or above `LEN` are out of the engine's reach, and stay (R90, log 12). -/
def UnderReset.release (u : UnderReset) (stackBase len : Nat) : State :=
  State.release ⟨stackBase, len, u.tags⟩ u.mem

/-- Reset asserted and released with nothing loaded in between, from any state (R114, R117): only the memory
survives (R116). -/
def State.hostReset (s : State) (stackBase len : Nat) : State := s.assertReset.release stackBase len

/-- The machine at its first reset release, with a memory image loaded from index 0 (R118). -/
def State.boot (stackBase len : Nat) (tags : Tags) (image : List Word) : State :=
  (UnderReset.load ⟨[], tags⟩ 0 image).release stackBase len

/-- The text of one output value (R93): signed decimal digits and a newline. The host's duty, not the block's. -/
def renderLine (v : Word) : String := toString v.toInt ++ "\n"

/-- The text of the output history (R93). -/
def renderOut (out : List Word) : String := String.join (out.map renderLine)

end Sys2Proof.Machine
end

