-- ==== Sys2Proof/Safety.lean ====
section
/-! DEFINITION. What counts as a good state and a safe run, and the vocabulary the statements share: frames, the
invariants of `spec/10_state.md` R18, R20, R24, and the fault list of `spec/40_step_cycle.md` R65 written down on its
own, without the step. -/

namespace Sys2Proof.Machine

/-- R20 in the form that holds for every configuration, a broken launch premise included (R97): `sp` is at
`STACK_BASE` or above, and beyond `LEN` only where it still is at `STACK_BASE`. -/
abbrev State.stackOk (s : State) : Prop :=
  s.cfg.stackBase ≤ s.sp ∧ s.sp ≤ max s.cfg.stackBase s.cfg.len

/-- The memory is canonical and lists no word outside `[0, LEN)` (R28): the storage is that of this execution alone, and
keeps no word from one with a larger `LEN` (log 12). -/
abbrev State.memOk (s : State) : Prop :=
  Memory.wf s.mem = true ∧ Memory.within s.mem s.cfg.len = true

/-- R24: a record in `FAULTED`, with the index of the faulting instruction as its second payload (R98); `(NONE, 0, 0)`
in `RUNNING` and `EXITED`. -/
abbrev State.faultRecordOk (s : State) : Prop :=
  match s.status with
  | .running => s.fault = ⟨.none, 0, 0⟩
  | .exited => s.fault = ⟨.none, 0, 0⟩
  | .faulted => s.fault.fcode ≠ .none ∧ s.fault.fb = s.ip

/-- The range of R18, in which every value of `ip` lies: 33 signed bits hold it. -/
abbrev pointerRange (n : Int) : Prop := -2 ^ 31 ≤ n ∧ n ≤ 2 ^ 32 - 3

/-- `ip` and the payload of the fault record lie in the range of R18. -/
abbrev State.pointersOk (s : State) : Prop :=
  pointerRange s.ip ∧ pointerRange s.fault.fa ∧ pointerRange s.fault.fb

/-- A run is safe as long as no fault is recorded (R112). -/
abbrev State.safe (s : State) : Prop := s.status ≠ .faulted

/-- `k` steps lead from one state to another. -/
abbrev runsTo (k : Nat) (s t : State) : Prop := Host.Core.run Sys2Proof.core k s = .next t

/-- No register changes. -/
abbrev keepsRegs (s t : State) : Prop := ∀ p : Reg, t.regs.read p = s.regs.read p

/-- No register changes but one. -/
abbrev keepsRegsBut (q : Reg) (s t : State) : Prop := ∀ p : Reg, p ≠ q → t.regs.read p = s.regs.read p

/-- Every word of memory reads as before. -/
abbrev keepsMem (s t : State) : Prop := ∀ a : Nat, Memory.read t.mem a = Memory.read s.mem a

/-- Every word of memory but one reads as before. -/
abbrev keepsMemBut (n : Nat) (s t : State) : Prop := ∀ a : Nat, a ≠ n → Memory.read t.mem a = Memory.read s.mem a

/-- Status, fault record and configuration stay. -/
abbrev keepsControl (s t : State) : Prop := t.status = s.status ∧ t.fault = s.fault ∧ t.cfg = s.cfg

/-- The operand word is no register index (R62). -/
abbrev badIndex (w : Word) : Prop := w.toInt < 0 ∨ 3 ≤ w.toInt

/-- The instruction's words stand in memory from `ip` on, all of them below `LEN` (R44, R47). -/
abbrev State.holdsAtIp (s : State) (i : Instr) : Prop :=
  0 ≤ s.ip ∧ s.ip + i.size ≤ s.cfg.len ∧
    ∀ j w, (encode s.cfg.tags i)[j]? = some w → Memory.read s.mem (s.ip.toNat + j) = w

/-- The fetch faults of an instruction (R59, R61): of its tag where `ip` is no valid index, and of the first operand
that the memory ends before (an instruction of one word has none). -/
def fetchFaultsOf (i : Instr) : Prop :=
  ∀ s : State, s.status = .running → s.cfg.tags.admissible →
    ((s.ip < 0 ∨ s.cfg.len ≤ s.ip) → step s = .next (s.raise .fetchOutOfRange s.ip s.ip)) ∧
    (∀ j : Nat, 1 ≤ j → j < i.size → 0 ≤ s.ip → s.ip + j = s.cfg.len →
      Memory.read s.mem s.ip.toNat = s.cfg.tags.tagOf i.opcode →
        step s = .next (s.raise .fetchOutOfRange (s.ip + j) s.ip))

/-- The word `j` places after `ip`, range aside. -/
def State.wordAt (s : State) (j : Nat) : Word := Memory.read s.mem (s.ip.toNat + j)

/-- The read of the word `j` places after `ip`, as the memory port shows it (R90, R91). -/
def State.readAt (s : State) (j : Nat) : Transaction := .read (s.ip.toNat + j) (s.wordAt j)

/-- The reads of the first `n` words of the instruction at `ip`, in ascending order: `R ip`, `R ip+1`, … of R91. -/
def State.readsOf (s : State) (n : Nat) : List Transaction := (List.range n).map s.readAt

/-- Every instruction word that the step fetches lies below `n`, whether the fetch succeeds or not. -/
abbrev State.fetchesBelow (s : State) (n : Nat) : Prop := ∀ (a : Nat) (w : Word), .read a w ∈ s.fetchReads → a < n

/-- The opcode of the tag at `ip`, range aside. -/
def State.opcodeAtIp (s : State) : Option Opcode := s.cfg.tags.opcodeOf (s.wordAt 0)

/-- The operand kinds of the tag at `ip`. -/
def State.kindsAtIp (s : State) : List OperandKind :=
  match s.opcodeAtIp with
  | some m => m.kinds
  | none => []

/-- Every fault condition that R65 lists, in its order, with the record of R98 it writes. -/
def State.faultList (s : State) : List (Bool × FaultRecord) :=
  [ (decide (s.ip < 0 ∨ s.cfg.len ≤ s.ip), ⟨.fetchOutOfRange, s.ip, s.ip⟩),
    (decide (s.opcodeAtIp = none), ⟨.decodeFault, (s.wordAt 0).toInt, s.ip⟩),
    (decide (1 ≤ s.kindsAtIp.length ∧ s.cfg.len ≤ s.ip + 1), ⟨.fetchOutOfRange, s.ip + 1, s.ip⟩),
    (decide (2 ≤ s.kindsAtIp.length ∧ s.cfg.len ≤ s.ip + 2), ⟨.fetchOutOfRange, s.ip + 2, s.ip⟩),
    (decide (s.kindsAtIp[0]? = some .registerIndex ∧ badIndex (s.wordAt 1)),
      ⟨.registerIndex, (s.wordAt 1).toInt, s.ip⟩),
    (decide (s.kindsAtIp[1]? = some .registerIndex ∧ badIndex (s.wordAt 2)),
      ⟨.registerIndex, (s.wordAt 2).toInt, s.ip⟩),
    (decide ((s.opcodeAtIp = some .call ∨ s.opcodeAtIp = some .push) ∧ s.cfg.len ≤ s.sp),
      ⟨.stackOverflow, s.sp, s.ip⟩),
    (decide ((s.opcodeAtIp = some .ret ∨ s.opcodeAtIp = some .pop) ∧ s.sp ≤ s.cfg.stackBase),
      ⟨.stackUnderflow, s.sp, s.ip⟩) ]

/-- The first fault of R65's list that applies, if one does. -/
def State.firstFault (s : State) : Option FaultRecord := (s.faultList.find? (·.1)).map (·.2)

/-- R112: the points where the original's behaviour was undefined: an index of an instruction word, a register index or
a stack access out of range, before which no other fault is due. -/
abbrev State.originalUndefined (s : State) : Prop := ∃ f : FaultRecord, s.firstFault = some f ∧ f.fcode ≠ .decodeFault

/-- Two states that differ at most in the words of memory at `sp` and above: the free part of the stack (R39). -/
abbrev sameButFreeStack (s t : State) : Prop :=
  t = { s with mem := t.mem } ∧ ∀ a : Nat, a < s.sp → Memory.read t.mem a = Memory.read s.mem a

end Sys2Proof.Machine
end

