-- ==== Sys2Proof/Certificates/Slice0/Obligations.lean ====
section
/-! DEFINITION. The statements for the provers. Each names in its docstring the rule of `spec/` it formalises. -/

open Sys2Proof Sys2Proof.Machine

/-! ## Encoding -/

/-- R44 to R46, R52, R60: under every admissible tag map the decoder reads an instruction's words back, whatever
words follow. -/
def Obligations.DecodeReadsBackEncode : Prop :=
  ∀ (T : Tags) (i : Instr) (rest : List Word), T.admissible → decode T (encode T i ++ rest) = .ok (i, rest)

/-- R52, R56, R60: where the decoder reads an instruction, the words it read are that instruction's encoding; no
word is dropped or misread. -/
def Obligations.EncodeReadsBackDecode : Prop :=
  ∀ (T : Tags) (ws rest : List Word) (i : Instr), decode T ws = .ok (i, rest) → encode T i ++ rest = ws

/-- R50: the tag alone fixes the length, 1 plus the operand count of its row of R52. -/
def Obligations.LengthFollowsFromTag : Prop :=
  ∀ (T : Tags) (w : Word) (ws rest : List Word) (i : Instr) (m : Opcode), T.opcodeOf w = some m →
    decode T (w :: ws) = .ok (i, rest) →
      i.opcode = m ∧ i.size = 1 + m.kinds.length ∧ (w :: ws).length = i.size + rest.length

/-- R51, R52, R55: words written out under the default tags decode to the instruction they stand for. -/
def Obligations.SpecWordsDecode : Prop :=
  decode Tags.default [6, 0, 5] = .ok (.set 0 5, []) ∧
  decode Tags.default [0, 8, 10] = .ok (.call 8, [10]) ∧
  decode Tags.default [7, 0, 2] = .ok (.copy 0 2, []) ∧
  decode Tags.default [8, 1, 2, 1] = .ok (.add 1 2, [1]) ∧
  decode Tags.default [3, 0xFFFFFFF9, 11] = .ok (.jne (-7), [11]) ∧
  decode Tags.default [11] = .ok (.exit, []) ∧
  decode Tags.default [99] = .error (.unknownTag 99) ∧
  decode Tags.default [12] = .error (.unknownTag 12) ∧
  decode Tags.default [6, 0] = .error (.missing 2)

/-! ## The step -/

/-- R57, R64: where the words at `ip` decode to an instruction, a step of a running machine is that instruction's
meaning at that state; nothing is added around it. -/
def Obligations.StepRunsFetchedInstruction : Prop :=
  ∀ (s : State) (i : Instr), s.status = .running → s.fetch = .ok i → step s = exec i s

/-- R44, R47, R60, R61: where an instruction's encoding stands in memory from `ip` on, a step of a running machine
runs that instruction. -/
def Obligations.StepRunsInstructionInMemory : Prop :=
  ∀ (s : State) (i : Instr), s.status = .running → s.cfg.tags.admissible → s.holdsAtIp i → step s = exec i s

/-- R59: the tag fetch faults outside `[0, LEN)` and otherwise reads the word at `ip`. -/
def Obligations.TagFetchIsRangeChecked : Prop :=
  ∀ s : State, s.status = .running →
    ((s.ip < 0 ∨ s.cfg.len ≤ s.ip) → step s = .next (s.raise .fetchOutOfRange s.ip s.ip)) ∧
    (0 ≤ s.ip → s.ip < s.cfg.len → s.fetchWord 0 = some (Memory.read s.mem s.ip.toNat))

/-- R99: a tag word that is none of the twelve raises `DecodeFault(value, ip)`, whatever follows it, and no word after
it is read; 99 does so under every admissible tag map. -/
def Obligations.UnknownTagRaisesDecodeFault : Prop :=
  ∀ s : State, s.status = .running → 0 ≤ s.ip → s.ip < s.cfg.len →
    ((∀ m : Opcode, s.cfg.tags.tagOf m ≠ Memory.read s.mem s.ip.toNat) →
      step s = .next (s.raise .decodeFault (Memory.read s.mem s.ip.toNat).toInt s.ip) ∧
      s.transactions = [.read s.ip.toNat (Memory.read s.mem s.ip.toNat)]) ∧
    (s.cfg.tags.admissible → Memory.read s.mem s.ip.toNat = 99 →
      step s = .next (s.raise .decodeFault 99 s.ip))

/-- R62: the first register-index operand out of `[0, 3)`, in operand order, raises `RegisterIndex`; where none is,
no `RegisterIndex` is raised. -/
def Obligations.RegisterIndexCheckedInOperandOrder : Prop :=
  ∀ (s : State) (i : Instr),
    match (i.opcode.kinds.zip i.operands).find? fun p => decide (p.1 = .registerIndex ∧ badIndex p.2) with
    | some p => exec i s = .next (s.raise .registerIndex p.2.toInt s.ip)
    | none => ∀ t : State, exec i s = .next t → t.fault = s.fault ∨ t.fault.fcode ≠ .registerIndex

/-- R63: once the register indices are good, the stack bound decides CALL, PUSH, RET and POP, by inequalities that
under the stack invariant and `LP-SIZE` are the source's equalities. -/
def Obligations.StackBoundsChecked : Prop :=
  ∀ s : State,
    (∀ i : Instr, i.wellFormed = true → i.opcode = .call ∨ i.opcode = .push → s.cfg.len ≤ s.sp →
      exec i s = .next (s.raise .stackOverflow s.sp s.ip)) ∧
    (∀ i : Instr, i.wellFormed = true → i.opcode = .ret ∨ i.opcode = .pop → s.sp ≤ s.cfg.stackBase →
      exec i s = .next (s.raise .stackUnderflow s.sp s.ip)) ∧
    (s.cfg.lpSize → s.stackOk →
      (s.cfg.len ≤ s.sp ↔ s.sp = s.cfg.len) ∧ (s.sp ≤ s.cfg.stackBase ↔ s.sp = s.cfg.stackBase))

/-- R65, R98, R106: a step of a running machine raises exactly the first fault of R65's list that applies, with the
payload of R98; where none applies, and the stack pointer is in its region, the step completes without a fault (R64). -/
def Obligations.StepRaisesFirstFaultOfList : Prop :=
  ∀ s : State, s.status = .running →
    (∀ f : FaultRecord, s.firstFault = some f → step s = .next (s.raise f.fcode f.fa f.fb)) ∧
    (s.firstFault = none → s.stackOk → ∃ t : State, step s = .next t ∧ t.status ≠ .faulted ∧ t.fault = s.fault)

/-! ## The twelve instructions -/

/-- R67: CALL pushes the index of the next instruction and jumps to its absolute, unchecked address. -/
def Obligations.CallPushesReturnAddressAndJumps : Prop :=
  ∀ addr : Word,
    (∀ T : Tags, T.admissible → decode T [T.call, addr] = .ok (.call addr, [])) ∧
    (∀ s : State, s.sp < s.cfg.len → ∃ t : State, exec (.call addr) s = .next t ∧
      Memory.read t.mem s.sp = wrap32 (s.ip + 2) ∧
      (0 ≤ s.ip → s.ip + 1 < s.cfg.len → s.cfg.len ≤ Config.maxLen → (Memory.read t.mem s.sp).toInt = s.ip + 2) ∧
      t.sp = s.sp + 1 ∧ t.ip = addr.toInt ∧
      keepsRegs s t ∧ t.flag = s.flag ∧ t.out = s.out ∧ keepsMemBut s.sp s t ∧ keepsControl s t) ∧
    (∀ s : State, s.cfg.len ≤ s.sp → exec (.call addr) s = .next (s.raise .stackOverflow s.sp s.ip)) ∧
    fetchFaultsOf (.call addr)

/-- R68: RET pops a word and jumps to it; the slot keeps its word. -/
def Obligations.RetPopsAndJumps : Prop :=
  (∀ T : Tags, T.admissible → decode T [T.ret] = .ok (.ret, [])) ∧
  (∀ s : State, s.cfg.stackBase < s.sp → s.sp ≤ s.cfg.len → ∃ t : State, exec .ret s = .next t ∧
    t.sp + 1 = s.sp ∧ t.ip = (Memory.read s.mem (s.sp - 1)).toInt ∧
    keepsRegs s t ∧ t.flag = s.flag ∧ t.out = s.out ∧ keepsMem s t ∧ keepsControl s t) ∧
  (∀ s : State, s.sp ≤ s.cfg.stackBase → exec .ret s = .next (s.raise .stackUnderflow s.sp s.ip)) ∧
  fetchFaultsOf .ret

/-- R69: CMP assigns the flag, in both directions, and nothing else. -/
def Obligations.CmpAssignsFlag : Prop :=
  ∀ r1 c : Word,
    (∀ T : Tags, T.admissible → decode T [T.cmp, r1, c] = .ok (.cmp r1 c, [])) ∧
    (∀ (s : State) (q : Reg), r1.toInt = q.num → ∃ t : State, exec (.cmp r1 c) s = .next t ∧
      (t.flag = true ↔ s.regs.read q = c) ∧ t.ip = s.ip + 3 ∧
      keepsRegs s t ∧ t.sp = s.sp ∧ t.out = s.out ∧ keepsMem s t ∧ keepsControl s t) ∧
    (∀ s : State, badIndex r1 → exec (.cmp r1 c) s = .next (s.raise .registerIndex r1.toInt s.ip)) ∧
    fetchFaultsOf (.cmp r1 c)

/-- R70: JNE jumps relative to its own tag, exactly, when the flag is false, and falls through when it is true. -/
def Obligations.JneJumpsWhenFlagFalse : Prop :=
  ∀ offset : Word,
    (∀ T : Tags, T.admissible → decode T [T.jne, offset] = .ok (.jne offset, [])) ∧
    (∀ s : State, ∃ t : State, exec (.jne offset) s = .next t ∧
      (s.flag = false → t.ip = s.ip + offset.toInt) ∧ (s.flag = true → t.ip = s.ip + 2) ∧
      t.flag = s.flag ∧ keepsRegs s t ∧ t.sp = s.sp ∧ t.out = s.out ∧ keepsMem s t ∧ keepsControl s t) ∧
    fetchFaultsOf (.jne offset)

/-- R73: PUSH stores the register at `mem[sp]` and raises `sp`; a bad index is reported before a full stack. -/
def Obligations.PushStoresRegister : Prop :=
  ∀ r : Word,
    (∀ T : Tags, T.admissible → decode T [T.push, r] = .ok (.push r, [])) ∧
    (∀ (s : State) (q : Reg), r.toInt = q.num → s.sp < s.cfg.len → ∃ t : State, exec (.push r) s = .next t ∧
      Memory.read t.mem s.sp = s.regs.read q ∧ t.sp = s.sp + 1 ∧ t.ip = s.ip + 2 ∧
      keepsRegs s t ∧ t.flag = s.flag ∧ t.out = s.out ∧ keepsMemBut s.sp s t ∧ keepsControl s t) ∧
    (∀ s : State, badIndex r → exec (.push r) s = .next (s.raise .registerIndex r.toInt s.ip)) ∧
    (∀ (s : State) (q : Reg), r.toInt = q.num → s.cfg.len ≤ s.sp →
      exec (.push r) s = .next (s.raise .stackOverflow s.sp s.ip)) ∧
    fetchFaultsOf (.push r)

/-- R74: POP lowers `sp` and loads the register from the slot, which keeps its word; a bad index is reported before
an empty stack. -/
def Obligations.PopLoadsRegister : Prop :=
  ∀ r : Word,
    (∀ T : Tags, T.admissible → decode T [T.pop, r] = .ok (.pop r, [])) ∧
    (∀ (s : State) (q : Reg), r.toInt = q.num → s.cfg.stackBase < s.sp → s.sp ≤ s.cfg.len →
      ∃ t : State, exec (.pop r) s = .next t ∧
        t.sp + 1 = s.sp ∧ t.regs.read q = Memory.read s.mem (s.sp - 1) ∧ t.ip = s.ip + 2 ∧
        keepsRegsBut q s t ∧ t.flag = s.flag ∧ t.out = s.out ∧ keepsMem s t ∧ keepsControl s t) ∧
    (∀ s : State, badIndex r → exec (.pop r) s = .next (s.raise .registerIndex r.toInt s.ip)) ∧
    (∀ (s : State) (q : Reg), r.toInt = q.num → s.sp ≤ s.cfg.stackBase →
      exec (.pop r) s = .next (s.raise .stackUnderflow s.sp s.ip)) ∧
    fetchFaultsOf (.pop r)

/-- R77: SET writes its constant, unchanged, to the register its first operand names. -/
def Obligations.SetWritesConstant : Prop :=
  ∀ r c : Word,
    (∀ T : Tags, T.admissible → decode T [T.set, r, c] = .ok (.set r c, [])) ∧
    (∀ (s : State) (q : Reg), r.toInt = q.num → ∃ t : State, exec (.set r c) s = .next t ∧
      t.regs.read q = c ∧ t.ip = s.ip + 3 ∧
      keepsRegsBut q s t ∧ t.sp = s.sp ∧ t.flag = s.flag ∧ t.out = s.out ∧ keepsMem s t ∧ keepsControl s t) ∧
    (∀ s : State, badIndex r → exec (.set r c) s = .next (s.raise .registerIndex r.toInt s.ip)) ∧
    fetchFaultsOf (.set r c)

/-- R78: COPY copies from the register of its first operand to that of its second; of two bad indices the first is
reported. -/
def Obligations.CopyMovesFirstIntoSecond : Prop :=
  ∀ rSrc rDst : Word,
    (∀ T : Tags, T.admissible → decode T [T.copy, rSrc, rDst] = .ok (.copy rSrc rDst, [])) ∧
    (∀ (s : State) (p q : Reg), rSrc.toInt = p.num → rDst.toInt = q.num →
      ∃ t : State, exec (.copy rSrc rDst) s = .next t ∧
        t.regs.read q = s.regs.read p ∧ t.ip = s.ip + 3 ∧
        keepsRegsBut q s t ∧ t.sp = s.sp ∧ t.flag = s.flag ∧ t.out = s.out ∧ keepsMem s t ∧ keepsControl s t) ∧
    (∀ s : State, badIndex rSrc →
      exec (.copy rSrc rDst) s = .next (s.raise .registerIndex rSrc.toInt s.ip)) ∧
    (∀ s : State, ¬ badIndex rSrc → badIndex rDst →
      exec (.copy rSrc rDst) s = .next (s.raise .registerIndex rDst.toInt s.ip)) ∧
    fetchFaultsOf (.copy rSrc rDst)

/-- R79: ADD adds the register of its second operand into that of its first, modulo `2^32`; of two bad indices the
first is reported. -/
def Obligations.AddAddsSecondIntoFirst : Prop :=
  ∀ rDst rSrc : Word,
    (∀ T : Tags, T.admissible → decode T [T.add, rDst, rSrc] = .ok (.add rDst rSrc, [])) ∧
    (∀ (s : State) (q p : Reg), rDst.toInt = q.num → rSrc.toInt = p.num →
      ∃ t : State, exec (.add rDst rSrc) s = .next t ∧
        (t.regs.read q).toInt = ((s.regs.read q).toInt + (s.regs.read p).toInt).bmod (2 ^ 32) ∧
        t.ip = s.ip + 3 ∧
        keepsRegsBut q s t ∧ t.sp = s.sp ∧ t.flag = s.flag ∧ t.out = s.out ∧ keepsMem s t ∧ keepsControl s t) ∧
    (∀ s : State, badIndex rDst →
      exec (.add rDst rSrc) s = .next (s.raise .registerIndex rDst.toInt s.ip)) ∧
    (∀ s : State, ¬ badIndex rDst → badIndex rSrc →
      exec (.add rDst rSrc) s = .next (s.raise .registerIndex rSrc.toInt s.ip)) ∧
    fetchFaultsOf (.add rDst rSrc)

/-- R80: DEC subtracts 1 modulo `2^32` and writes no flag. -/
def Obligations.DecSubtractsOne : Prop :=
  ∀ r : Word,
    (∀ T : Tags, T.admissible → decode T [T.dec, r] = .ok (.dec r, [])) ∧
    (∀ (s : State) (q : Reg), r.toInt = q.num → ∃ t : State, exec (.dec r) s = .next t ∧
      (t.regs.read q).toInt = ((s.regs.read q).toInt - 1).bmod (2 ^ 32) ∧ t.ip = s.ip + 2 ∧
      keepsRegsBut q s t ∧ t.sp = s.sp ∧ t.flag = s.flag ∧ t.out = s.out ∧ keepsMem s t ∧ keepsControl s t) ∧
    (∀ s : State, badIndex r → exec (.dec r) s = .next (s.raise .registerIndex r.toInt s.ip)) ∧
    fetchFaultsOf (.dec r)

/-- R84: PRINT appends the register's value to the output history. -/
def Obligations.PrintAppendsRegister : Prop :=
  ∀ r : Word,
    (∀ T : Tags, T.admissible → decode T [T.print, r] = .ok (.print r, [])) ∧
    (∀ (s : State) (q : Reg), r.toInt = q.num → ∃ t : State, exec (.print r) s = .next t ∧
      t.out = s.out ++ [s.regs.read q] ∧ t.ip = s.ip + 2 ∧
      keepsRegs s t ∧ t.sp = s.sp ∧ t.flag = s.flag ∧ keepsMem s t ∧ keepsControl s t) ∧
    (∀ s : State, badIndex r → exec (.print r) s = .next (s.raise .registerIndex r.toInt s.ip)) ∧
    fetchFaultsOf (.print r)

/-- R86: EXIT sets `status` to `EXITED` and changes nothing else, `ip` included, whatever the stack and the flag;
whatever a step request answers after it, nothing changes any more. -/
def Obligations.ExitHaltsInPlace : Prop :=
  (∀ T : Tags, T.admissible → decode T [T.exit] = .ok (.exit, [])) ∧
  (∀ s : State, ∃ t : State, exec .exit s = .next t ∧
    t.status = .exited ∧ t.ip = s.ip ∧ t.fault = s.fault ∧ t.cfg = s.cfg ∧
    keepsRegs s t ∧ t.sp = s.sp ∧ t.flag = s.flag ∧ t.out = s.out ∧ keepsMem s t ∧
    ∀ (k : Nat) (u : State), runsTo k t u → u = t) ∧
  fetchFaultsOf .exit

/-! ## Faults and termination -/

/-- R104: fault entry writes the status and the fault record and nothing else, and control goes nowhere from it:
whatever a step request answers afterwards, nothing changes. -/
def Obligations.FaultEntryWritesOnlyStatusAndRecord : Prop :=
  ∀ (s : State) (f : FaultCode) (a b : Int),
    (s.raise f a b).status = .faulted ∧ (s.raise f a b).fault.fcode = f ∧
    (s.raise f a b).fault.fa = a ∧ (s.raise f a b).fault.fb = b ∧
    { s.raise f a b with status := s.status, fault := s.fault } = s ∧
    ∀ (k : Nat) (u : State), runsTo k (s.raise f a b) u → u = s.raise f a b

/-- R105, R98: a step that faults changes nothing but the status and the fault record, which names a fault and whose
second payload is the faulting instruction's index; whatever a step request answers afterwards, nothing changes. -/
def Obligations.FaultsArePrecise : Prop :=
  ∀ s t : State, s.status = .running → step s = .next t → t.status = .faulted →
    { t with status := s.status, fault := s.fault } = s ∧ t.fault.fcode ≠ .none ∧ t.fault.fb = s.ip ∧
    ∀ (k : Nat) (u : State), runsTo k t u → u = t

/-- R23, R58: in a terminal state nothing changes. That a step request there answers the same state, and not a stop,
is the model's choice (log 5). -/
def Obligations.TerminalStatesDoNotChange : Prop :=
  ∀ (s : State) (k : Nat), s.status ≠ .running → runsTo k s s

/-- R32, R64: with the stack pointer in its region (R20) a step always answers a next state: no access leaves the
memory and no instruction is refused. In a terminal state, where R58 has no step, that there is an answer is the
model's choice (log 5). -/
def Obligations.StepAlwaysAnswersNextState : Prop :=
  ∀ s : State, s.stackOk → ∃ t : State, step s = .next t

/-- R97: with `STACK_BASE > LEN` every push faults, every pop faults, and no step stops otherwise. In a terminal state
the answer that the last clause speaks of is the model's choice (log 5). -/
def Obligations.BrokenPremiseStaysInRange : Prop :=
  ∀ s : State, s.stackOk → s.cfg.len < s.cfg.stackBase →
    (∀ i : Instr, i.wellFormed = true → i.opcode = .call ∨ i.opcode = .push →
      exec i s = .next (s.raise .stackOverflow s.sp s.ip)) ∧
    (∀ i : Instr, i.wellFormed = true → i.opcode = .ret ∨ i.opcode = .pop →
      exec i s = .next (s.raise .stackUnderflow s.sp s.ip)) ∧
    ∃ t : State, step s = .next t ∧ t.sp = s.sp

/-- The model's own stop (log 6): RET and POP in a state whose stack pointer lies beyond both `STACK_BASE` and `LEN`,
which no run reaches (R20, R97), end in the host fault `outsideMemory` at the slot they would read. -/
def Obligations.PopBeyondMemoryStops : Prop :=
  ∀ s : State, s.cfg.stackBase < s.sp → s.cfg.len < s.sp →
    exec .ret s = .fault (.outsideMemory (s.sp - 1)) ∧
    ∀ r : Word, ¬ badIndex r → exec (.pop r) s = .fault (.outsideMemory (s.sp - 1))

/-- R66, R113: a JNE with offset 0, reached with the flag false, leaves the whole state as it is for ever: a hang,
which is neither an exit nor a fault. -/
def Obligations.SelfJumpNeverEnds : Prop :=
  ∀ s : State, s.status = .running → s.flag = false → s.cfg.tags.admissible → s.holdsAtIp (.jne 0) →
    ∀ k : Nat, runsTo k s s

/-- R112: the machine ends, in a fault that is no `DecodeFault`, wherever the original's behaviour was undefined, and
goes on nowhere from there; elsewhere it runs the instruction or raises `DecodeFault`, as the original did. So a run
that ends with no fault recorded, or with a `DecodeFault`, met no such point. -/
def Obligations.FaultsWhereOriginalWasUndefined : Prop :=
  (∀ s : State, s.status = .running → s.originalUndefined →
    ∃ t : State, step s = .next t ∧ ¬ t.safe ∧ t.fault.fcode ≠ .decodeFault ∧ ∀ (k : Nat) (u : State), runsTo k t u → u = t) ∧
  (∀ s : State, s.status = .running → ¬ s.originalUndefined → s.stackOk →
    (∃ (i : Instr) (t : State), s.fetch = .ok i ∧ step s = exec i s ∧ exec i s = .next t ∧ t.safe) ∨
    (s.opcodeAtIp = none ∧ step s = .next (s.raise .decodeFault (s.wordAt 0).toInt s.ip))) ∧
  (∀ (s t : State) (k : Nat), runsTo k s t → t.safe ∨ t.fault.fcode = .decodeFault →
    ∀ (m : Nat) (x : State), m < k → runsTo m s x → x.status = .running → ¬ x.originalUndefined)

/-! ## Invariants -/

/-- R20, R97: every step keeps the stack pointer in its region, for every configuration. -/
def Obligations.StepKeepsStackPointerInRegion : Prop :=
  ∀ s t : State, s.stackOk → step s = .next t → t.stackOk

/-- R20: in every state reached from reset under the launch premise, `STACK_BASE <= sp <= LEN`; with the `LEN` that
R5 admits, 32 bits hold `sp`. -/
def Obligations.ReachedStackPointerInBounds : Prop :=
  ∀ (cfg : Config) (mem : Memory) (k : Nat) (t : State), cfg.stackBase ≤ cfg.len →
    runsTo k (State.release cfg mem) t →
      cfg.stackBase ≤ t.sp ∧ t.sp ≤ cfg.len ∧ (cfg.len ≤ Config.maxLen → t.sp < 2 ^ 32)

/-- The model's canonical form of memory (log 7): every step keeps it; keeps it with every listed word below `LEN`; and
changes no word of the storage at or above `LEN` (R32, log 12). -/
def Obligations.StepKeepsMemoryCanonical : Prop :=
  ∀ s t : State, step s = .next t →
    (Memory.wf s.mem = true → Memory.wf t.mem = true) ∧ (s.memOk → t.memOk) ∧
    ∀ a : Nat, s.cfg.len ≤ a → Memory.read t.mem a = Memory.read s.mem a

/-- R24: every step keeps the fault record faithful to the status. -/
def Obligations.StepKeepsFaultRecordFaithful : Prop :=
  ∀ s t : State, s.faultRecordOk → step s = .next t → t.faultRecordOk

/-- R18, R25: under `LP-SIZE` every step keeps `ip` and the fault payload in the range of R18, and the 33-bit ports
show them unchanged. -/
def Obligations.StepKeepsPointersIn33Bits : Prop :=
  ∀ s t : State, s.cfg.lpSize → s.stackOk → s.pointersOk → step s = .next t →
    t.pointersOk ∧ (payloadPort t.ip).toInt = t.ip ∧
    (payloadPort t.fault.fa).toInt = t.fault.fa ∧ (payloadPort t.fault.fb).toInt = t.fault.fb

/-- R20, R24, R27: the invariants hold at reset release, for every configuration and memory, and in `State.reset`, whose
own `LEN`, `STACK_BASE`, memory and tag map are the model's choice (log 1, 2, 3; the map is the default of R51) and meet
`LP-SIZE` and `LP-TAG` of R119. -/
def Obligations.LaunchMeetsInvariants : Prop :=
  (∀ (cfg : Config) (mem : Memory),
    (State.release cfg mem).stackOk ∧ (State.release cfg mem).faultRecordOk ∧ (State.release cfg mem).pointersOk ∧
    (Memory.wf mem = true → Memory.within mem cfg.len = true → (State.release cfg mem).memOk)) ∧
  State.reset.stackOk ∧ State.reset.faultRecordOk ∧ State.reset.pointersOk ∧ State.reset.memOk ∧
  State.reset.cfg.lpSize ∧ State.reset.cfg.tags.admissible

/-! ## What only some instructions may change -/

/-- R12: a register changes in a step only where the instruction executed names it as its destination. -/
def Obligations.RegisterChangesOnlyWhereNamed : Prop :=
  ∀ (s t : State) (q : Reg), s.status = .running → step s = .next t → t.regs.read q ≠ s.regs.read q →
    ∃ i : Instr, s.fetch = .ok i ∧
      ∃ w : Word, w.toInt = q.num ∧
        (i = .pop w ∨ (∃ c : Word, i = .set w c) ∨ (∃ a : Word, i = .copy a w) ∨ (∃ a : Word, i = .add w a) ∨ i = .dec w)

/-- R22: the flag changes in a step only where the instruction executed is a CMP. -/
def Obligations.FlagChangesOnlyByCmp : Prop :=
  ∀ s t : State, s.status = .running → step s = .next t → t.flag ≠ s.flag →
    ∃ r1 c : Word, s.fetch = .ok (.cmp r1 c)

/-- R21: `sp` changes only by CALL and PUSH, by plus one, and by RET and POP, by minus one. -/
def Obligations.StackPointerMovesByOne : Prop :=
  ∀ s t : State, s.status = .running → step s = .next t → t.sp ≠ s.sp →
    ∃ i : Instr, s.fetch = .ok i ∧
      (((i.opcode = .call ∨ i.opcode = .push) ∧ t.sp = s.sp + 1) ∨
       ((i.opcode = .ret ∨ i.opcode = .pop) ∧ t.sp + 1 = s.sp))

/-- R30, R31: a word of memory changes only at the old `sp`, and only by CALL and PUSH. -/
def Obligations.MemoryChangesOnlyByPush : Prop :=
  ∀ (s t : State) (a : Nat), s.status = .running → step s = .next t → Memory.read t.mem a ≠ Memory.read s.mem a →
    a = s.sp ∧ s.sp < s.cfg.len ∧ ∃ i : Instr, s.fetch = .ok i ∧ (i.opcode = .call ∨ i.opcode = .push)

/-- R26, R108: the output history only grows, by at most one value a step, and only by PRINT of a register. -/
def Obligations.OutputGrowsOnlyByPrint : Prop :=
  ∀ s t : State, s.status = .running → step s = .next t → t.out ≠ s.out →
    ∃ (r : Word) (q : Reg), s.fetch = .ok (.print r) ∧ r.toInt = q.num ∧ t.out = s.out ++ [s.regs.read q]

/-- R23: `status` leaves `RUNNING` only by EXIT, to `EXITED`, or by a fault, to `FAULTED`, and in both cases `ip`
stays. -/
def Obligations.StatusLeavesRunningOnlyByExitOrFault : Prop :=
  ∀ s t : State, s.status = .running → step s = .next t → t.status ≠ .running →
    t.ip = s.ip ∧ ((t.status = .exited ∧ s.fetch = .ok .exit) ∨ (t.status = .faulted ∧ t.fault.fcode ≠ .none))

/-- R5, R25: no number of steps changes `STACK_BASE`, `LEN` or the tag map. -/
def Obligations.ConfigurationIsConstant : Prop :=
  ∀ (k : Nat) (s t : State), runsTo k s t → t.cfg = s.cfg

/-! ## Memory, stack and control flow over several instructions -/

/-- R32: `MemRead` is defined on `[0, LEN)` only, and `MemWrite` makes one word readable there and leaves every other
word as it was. -/
def Obligations.MemReadAfterMemWrite : Prop :=
  ∀ (s : State) (a : Nat) (w : Word),
    (a < s.cfg.len → (s.memWrite a w).memRead a = some w) ∧
    (∀ b : Int, b ≠ a → (s.memWrite a w).memRead b = s.memRead b) ∧
    (∀ b : Int, (s.memRead b).isSome = true ↔ 0 ≤ b ∧ b < s.cfg.len)

/-- R38: in every state reached from reset under the launch premise the code region reads as the host loaded it, and
every write the next step issues lies in the stack region. -/
def Obligations.CodeRegionIsNeverWritten : Prop :=
  ∀ (cfg : Config) (mem : Memory) (k : Nat) (t : State), cfg.stackBase ≤ cfg.len →
    runsTo k (State.release cfg mem) t →
      (∀ a : Nat, a < cfg.stackBase → Memory.read t.mem a = Memory.read mem a) ∧
      (∀ (a : Nat) (w : Word), .write a w ∈ t.transactions → cfg.stackBase ≤ a ∧ a < cfg.len)

/-- R71: a RET executed where `sp` is one above the CALL's and the slot still reads as the CALL left it returns to the
word after the CALL, with `sp` as it was. -/
def Obligations.CallThenRetReturnsAfterCall : Prop :=
  ∀ (s t u : State) (addr : Word),
    0 ≤ s.ip → s.ip + 1 < s.cfg.len → s.cfg.len ≤ Config.maxLen → s.cfg.stackBase ≤ s.sp → s.sp < s.cfg.len →
    exec (.call addr) s = .next t →
    u.cfg = s.cfg → u.sp = s.sp + 1 → Memory.read u.mem s.sp = Memory.read t.mem s.sp →
      ∃ v : State, exec .ret u = .next v ∧ v.ip = s.ip + 2 ∧ v.sp = s.sp

/-- R75: a POP executed where `sp` and the slot are as the PUSH left them loads the value the PUSH saw, with `sp` as
it was before the PUSH, and leaves it in the slot. -/
def Obligations.PushThenPopRoundTrips : Prop :=
  ∀ (s t u : State) (p q : Reg) (r w : Word),
    r.toInt = p.num → w.toInt = q.num → s.cfg.stackBase ≤ s.sp → s.sp < s.cfg.len →
    exec (.push r) s = .next t →
    u.cfg = s.cfg → u.sp = t.sp → Memory.read u.mem s.sp = Memory.read t.mem s.sp →
      ∃ v : State, exec (.pop w) u = .next v ∧
        v.regs.read q = s.regs.read p ∧ v.sp = s.sp ∧ Memory.read v.mem s.sp = s.regs.read p

/-- R68 (b), R76: PUSH of a register followed by RET is a jump to the address the register holds, the stack as
before. -/
def Obligations.PushThenRetJumpsThroughRegister : Prop :=
  ∀ (s t : State) (p : Reg) (r : Word),
    r.toInt = p.num → s.cfg.stackBase ≤ s.sp → s.sp < s.cfg.len → exec (.push r) s = .next t →
      ∃ v : State, exec .ret t = .next v ∧ v.ip = (s.regs.read p).toInt ∧ v.sp = s.sp ∧ keepsRegs s v

/-- R69, R70: a CMP followed by a JNE falls through where register and constant are equal and jumps where they are
not. -/
def Obligations.CmpThenJneFollowsComparison : Prop :=
  ∀ (s t : State) (q : Reg) (r1 c offset : Word), r1.toInt = q.num → exec (.cmp r1 c) s = .next t →
    ∃ v : State, exec (.jne offset) t = .next v ∧
      (s.regs.read q = c → v.flag = true ∧ v.ip = t.ip + 2) ∧
      (s.regs.read q ≠ c → v.flag = false ∧ v.ip = t.ip + offset.toInt)

/-- R42: a word that a step writes is what every later fetch at its index reads, as tag or as operand, from the very
next step on (`k = 0`) until a step writes there again. In particular the word of any register, pushed by an
instruction whose next index is the slot it pushes to, is the next tag; where it is the tag of EXIT, the next step
exits. -/
def Obligations.StoredWordIsFetchedAtOnce : Prop :=
  (∀ (s v u : State) (k a : Nat) (w : Word), step s = .next v → .write a w ∈ s.transactions → runsTo k v u →
    (∀ (m : Nat) (x : State) (w' : Word), m < k → runsTo m v x → .write a w' ∉ x.transactions) →
      ∀ j : Nat, u.ip + j = a → u.fetchWord j = some w) ∧
  (∀ (s : State) (q : Reg) (r : Word), s.status = .running → s.cfg.tags.admissible → r.toInt = q.num →
    s.holdsAtIp (.push r) → s.ip + 2 = s.sp → s.sp < s.cfg.len →
      ∃ v : State, step s = .next v ∧ v.ip = s.ip + 2 ∧ v.sp = s.sp + 1 ∧ v.fetchWord 0 = some (s.regs.read q) ∧
        (s.regs.read q = s.cfg.tags.exit →
          ∃ u : State, runsTo 2 s u ∧ u.status = .exited ∧ u.ip = s.ip + 2 ∧ u.sp = s.sp + 1))

/-- R39: two states that differ only in the free words of the stack (at `sp` and above) take steps that differ only
so again, as long as every instruction word that is fetched lies below `sp`. Every instruction, of whatever length, and
every failed fetch that lies below `STACK_BASE` is such a one, `sp` being at `STACK_BASE` or above. -/
def Obligations.FreeStackContentsDoNotMatter : Prop :=
  ∀ s t s' : State, sameButFreeStack s t → s.stackOk → s.fetchesBelow s.sp → step s = .next s' →
    ∃ t' : State, step t = .next t' ∧ sameButFreeStack s' t'

/-! ## Arithmetic -/

/-- R7, R83: `wrap32` is congruent modulo `2^32` and in range, and wrapping the exact sum or difference is 32-bit
addition or subtraction of the bit patterns. -/
def Obligations.WrapAroundIsModular : Prop :=
  (∀ n : Int, (2 ^ 32 : Int) ∣ (wrap32 n).toInt - n ∧ -2 ^ 31 ≤ (wrap32 n).toInt ∧ (wrap32 n).toInt < 2 ^ 31) ∧
  (∀ a b : Word, wrap32 (a.toInt + b.toInt) = a + b) ∧
  (∀ a : Word, wrap32 (a.toInt - 1) = a - 1)

/-! ## Interfaces and reset -/

/-- R27: every piece of state at reset release, for every configuration and every memory the host loaded. -/
def Obligations.ReleaseGivesResetValues : Prop :=
  ∀ (cfg : Config) (mem : Memory),
    (∀ q : Reg, (State.release cfg mem).regs.read q = 0) ∧ (State.release cfg mem).ip = 0 ∧
    (State.release cfg mem).sp = cfg.stackBase ∧ (State.release cfg mem).flag = false ∧
    (State.release cfg mem).status = .running ∧ (State.release cfg mem).fault = ⟨.none, 0, 0⟩ ∧
    (State.release cfg mem).out = [] ∧ (∀ a : Nat, Memory.read (State.release cfg mem).mem a = Memory.read mem a)

/-- R114, R116, R117: reset, from any state, starts a fresh execution with the sampled `STACK_BASE` and `LEN`; of the
old one only the words of memory stay, every one of them: also those at or above a `LEN` that is lowered, out of the
engine's reach, which a later larger `LEN` brings back (R90, log 12). The canonical form is the model's (log 7). -/
def Obligations.ResetStartsAfreshOverTheSameMemory : Prop :=
  ∀ (s : State) (stackBase len : Nat),
    (∀ q : Reg, (s.hostReset stackBase len).regs.read q = 0) ∧ (s.hostReset stackBase len).ip = 0 ∧
    (s.hostReset stackBase len).sp = stackBase ∧ (s.hostReset stackBase len).flag = false ∧
    (s.hostReset stackBase len).status = .running ∧ (s.hostReset stackBase len).fault = ⟨.none, 0, 0⟩ ∧
    (s.hostReset stackBase len).out = [] ∧ (s.hostReset stackBase len).cfg = ⟨stackBase, len, s.cfg.tags⟩ ∧
    (∀ a : Nat, Memory.read (s.hostReset stackBase len).mem a = Memory.read s.mem a) ∧
    (∀ a : Nat, (s.hostReset stackBase len).memRead a = if a < len then some (Memory.read s.mem a) else none) ∧
    (Memory.wf s.mem = true → Memory.wf (s.hostReset stackBase len).mem = true) ∧
    (Memory.wf s.mem = true → Memory.within s.mem len = true → (s.hostReset stackBase len).memOk) ∧
    (∀ stackBase' len' a : Nat, a < len' →
      ((s.hostReset stackBase len).hostReset stackBase' len').memRead a = some (Memory.read s.mem a))

/-- R95, R96: while the machine runs the host has no move on the memory and does not see it; after the end it sees
all of it (that storage at or above `LEN` is in its view too is the model's choice, log 16), and a store of its own
changes one word (that it may store there is the model's choice, log 15). While reset is asserted, from whatever state, an aborted run's
included, and whatever `LEN` was, the host can load each word and every word of the memory that reset release samples,
and nothing else of the fresh execution depends on that. -/
def Obligations.HostTouchesMemoryOnlyOutsideARun : Prop :=
  ∀ (s : State) (a : Nat) (w : Word),
    (s.status = .running → s.hostStore a w = none ∧ s.observe.mem = none) ∧
    (s.status ≠ .running → s.observe.mem = some s.mem ∧
      (a < s.cfg.len → ∃ t : State, s.hostStore a w = some t ∧ t.memRead a = some w ∧ keepsMemBut a s t)) ∧
    (∀ stackBase len b : Nat,
      Memory.read ((s.assertReset.store a w).release stackBase len).mem b = if b = a then w else Memory.read s.mem b) ∧
    (∀ (stackBase len j : Nat) (image : List Word) (v : Word), image[j]? = some v → j < len →
      ((s.assertReset.load 0 image).release stackBase len).memRead j = some v) ∧
    (∀ (stackBase len : Nat) (image : List Word),
      { (s.assertReset.load 0 image).release stackBase len with mem := s.mem } =
        State.release ⟨stackBase, len, s.cfg.tags⟩ s.mem)

/-- R32, R90: every index on the memory port is valid, every read returns the word the memory holds there, and every
write is at the old `sp`. -/
def Obligations.PortAddressesAreValid : Prop :=
  ∀ s : State,
    (∀ (a : Nat) (w : Word), .read a w ∈ s.transactions → a < s.cfg.len ∧ Memory.read s.mem a = w) ∧
    (∀ (a : Nat) (w : Word), .write a w ∈ s.transactions → a < s.cfg.len ∧ a = s.sp)

/-- R90 to R92: the transactions of a step account for its effects: the word written is the one the memory then holds,
no word changes without a write, and the output transactions are exactly the values appended to `out`. -/
def Obligations.TransactionsAccountForEffects : Prop :=
  ∀ s t : State, step s = .next t →
    (∀ (a : Nat) (w : Word), .write a w ∈ s.transactions → Memory.read t.mem a = w) ∧
    (∀ a : Nat, Memory.read t.mem a ≠ Memory.read s.mem a → ∃ w : Word, .write a w ∈ s.transactions) ∧
    t.out = s.out ++ s.transactions.filterMap fun x => match x with
      | .output v => some v
      | .read _ _ => none
      | .write _ _ => none

/-- R91: the number of transactions of each instruction, PRINT's output not counted, when a step of a running machine
completes without a fault. -/
def Obligations.TransactionCountPerInstruction : Prop :=
  ∀ (s t : State) (i : Instr), s.status = .running → s.fetch = .ok i → exec i s = .next t → t.status ≠ .faulted →
    (s.transactions.filter fun x => match x with
      | .output _ => false
      | .read _ _ => true
      | .write _ _ => true).length =
      match i.opcode with
      | .call | .cmp | .set | .copy | .add | .push | .pop => 3
      | .ret | .jne | .dec | .print => 2
      | .exit => 1

/-- R91, R92: the transactions of a step of a running machine, in the order issued, with their indices and words: of
each instruction when it completes, and of each kind of faulting step, which issues the reads that precede the failing
check and nothing after it. -/
def Obligations.TransactionListPerStep : Prop :=
  ∀ s t : State, s.status = .running → step s = .next t →
    (t.status ≠ .faulted → ∃ i : Instr, s.fetch = .ok i ∧
      match i with
      | .call _ => s.transactions = s.readsOf 2 ++ [.write s.sp (wrap32 (s.ip + 2))]
      | .ret => s.transactions = s.readsOf 1 ++ [.read (s.sp - 1) (Memory.read s.mem (s.sp - 1))]
      | .cmp _ _ | .set _ _ | .copy _ _ | .add _ _ => s.transactions = s.readsOf 3
      | .jne _ | .dec _ => s.transactions = s.readsOf 2
      | .print r => ∃ q : Reg, r.toInt = q.num ∧ s.transactions = s.readsOf 2 ++ [.output (s.regs.read q)]
      | .push r => ∃ q : Reg, r.toInt = q.num ∧ s.transactions = s.readsOf 2 ++ [.write s.sp (s.regs.read q)]
      | .pop _ => s.transactions = s.readsOf 2 ++ [.read (s.sp - 1) (Memory.read s.mem (s.sp - 1))]
      | .exit => s.transactions = s.readsOf 1) ∧
    (t.status = .faulted →
      match t.fault.fcode with
      | .none => False
      | .fetchOutOfRange =>
        ∃ j : Nat, j ≤ 2 ∧ t.fault.fa = s.ip + j ∧ s.transactions = s.readsOf j
      | .decodeFault => s.transactions = s.readsOf 1
      | .registerIndex | .stackOverflow | .stackUnderflow =>
        ∃ i : Instr, s.fetch = .ok i ∧ s.transactions = s.readsOf i.size)
end

