-- ==== Sys2Proof/Laws/Decode.lean ====
section
/-! SUPPORT. The tag map read both ways, and the two operand readers. -/

namespace Sys2Proof

theorem Opcode.mem_all (m : Opcode) : m ∈ Opcode.all := by
  cases m <;> decide

theorem Opcode.kinds_length_le (m : Opcode) : m.kinds.length ≤ 2 := by
  cases m <;> decide

/-- A word that the map reads as an opcode is that opcode's tag. -/
theorem Tags.tagOf_of_opcodeOf {T : Tags} {w : Word} {m : Opcode} (h : T.opcodeOf w = some m) : T.tagOf m = w := by
  have := List.find?_some h
  simpa using this

/-- A word is no tag exactly where the map reads no opcode. -/
theorem Tags.opcodeOf_eq_none {T : Tags} {w : Word} : T.opcodeOf w = none ↔ ∀ m, T.tagOf m ≠ w := by
  simp [Tags.opcodeOf, List.find?_eq_none, Opcode.mem_all]

/-- An admissible map sends different opcodes to different tags (R60: at most one opcode matches). -/
theorem Tags.tagOf_injective {T : Tags} (h : T.admissible) {m m' : Opcode} (heq : T.tagOf m = T.tagOf m') : m = m' :=
  List.inj_on_of_nodup_map h.1 (Opcode.mem_all m) (Opcode.mem_all m') heq

theorem Tags.opcodeOf_tagOf {T : Tags} (h : T.admissible) (m : Opcode) : T.opcodeOf (T.tagOf m) = some m := by
  cases hm : T.opcodeOf (T.tagOf m) with
  | none => exact absurd rfl (Tags.opcodeOf_eq_none.1 hm m)
  | some m' => rw [Tags.tagOf_injective h (Tags.tagOf_of_opcodeOf hm)]

theorem Tags.default_admissible : Tags.default.admissible := by decide

theorem Instr.operands_length (i : Instr) : i.operands.length = i.opcode.kinds.length := by
  cases i <;> rfl

theorem readOne_eq_ok {get : Nat → Option Word} {build : Word → Instr} {i : Instr} :
    readOne get build = .ok i ↔ ∃ a, get 1 = some a ∧ i = build a := by
  unfold readOne
  cases get 1 <;> simp [eq_comm]

theorem readTwo_eq_ok {get : Nat → Option Word} {build : Word → Word → Instr} {i : Instr} :
    readTwo get build = .ok i ↔ ∃ a b, get 1 = some a ∧ get 2 = some b ∧ i = build a b := by
  unfold readTwo
  cases get 1 <;> cases get 2 <;> simp [eq_comm]

/-- Reading operands asks the reader for the words 1 up to the operand count only (R47). -/
theorem readOperands_congr (m : Opcode) {get get' : Nat → Option Word}
    (h : ∀ j, 1 ≤ j → j ≤ m.kinds.length → get j = get' j) : readOperands m get = readOperands m get' := by
  cases m <;> simp [Opcode.kinds] at h <;>
    first
    | rfl
    | simp [readOperands, readOne, readTwo, h 1, h 2]

end Sys2Proof
end

