-- ==== Sys2Proof/Laws/Memory.lean ====
section
/-! SUPPORT. The laws of the memory: read after write, the canonical form is kept, equal readings are equal data. -/

namespace Sys2Proof.Machine

theorem Memory.read_erase (m : Memory) (a b : Nat) :
    Memory.read (Memory.erase m a) b = if b = a then Memory.unlisted else Memory.read m b := by
  induction m with
  | nil => simp [Memory.erase, Memory.read]
  | cons c m ih =>
    obtain ⟨k, v⟩ := c
    by_cases hk : k = a
    · subst hk
      by_cases hb : b = k
      · subst hb
        simpa [Memory.erase] using ih
      · simp [Memory.erase, Memory.read, ih, hb, Ne.symm hb]
    · by_cases hb : b = a
      · subst hb
        simp [Memory.erase, Memory.read, ih, hk]
      · simp [Memory.erase, Memory.read, ih, hk, hb]

theorem Memory.read_insert (m : Memory) (a b : Nat) (w : Word) :
    Memory.read (Memory.insert (Memory.erase m a) a w) b = if b = a then w else Memory.read m b := by
  induction m with
  | nil =>
    by_cases hb : b = a
    · simp [Memory.erase, Memory.insert, Memory.read, hb]
    · simp [Memory.erase, Memory.insert, Memory.read, hb, Ne.symm hb]
  | cons c m ih =>
    obtain ⟨k, v⟩ := c
    by_cases hk : k = a
    · subst hk
      by_cases hb : b = k
      · subst hb
        simpa [Memory.erase] using ih
      · simp [Memory.erase, Memory.read, ih, hb, Ne.symm hb]
    · by_cases hlt : a < k
      · by_cases hb : b = a
        · simp [Memory.erase, Memory.insert, Memory.read, hk, hlt, hb]
        · simp [Memory.erase, Memory.insert, Memory.read, Memory.read_erase, hk, hlt, hb, Ne.symm hb]
      · by_cases hb : b = a
        · subst hb
          simp [Memory.erase, Memory.insert, Memory.read, ih, hk, hlt]
        · simp [Memory.erase, Memory.insert, Memory.read, ih, hk, hlt, hb]

/-- What a read after a write gives, at every index and for every memory (R32, R35). -/
theorem Memory.read_write (m : Memory) (a b : Nat) (w : Word) :
    Memory.read (Memory.write m a w) b = if b = a then w else Memory.read m b := by
  by_cases hw : w = Memory.unlisted
  · subst hw
    simp [Memory.write, Memory.read_erase]
  · simp [Memory.write, hw, Memory.read_insert]

@[simp] theorem Memory.read_write_same (m : Memory) (a : Nat) (w : Word) :
    Memory.read (Memory.write m a w) a = w := by
  simp [Memory.read_write]

theorem Memory.read_write_other (m : Memory) (a b : Nat) (w : Word) (h : b ≠ a) :
    Memory.read (Memory.write m a w) b = Memory.read m b := by
  simp [Memory.read_write, h]

/-! ### The canonical form -/

@[simp] theorem Memory.wfFrom_nil (n : Nat) : Memory.wfFrom n [] = true := rfl

@[simp] theorem Memory.wfFrom_cons (n k : Nat) (v : Word) (m : Memory) :
    Memory.wfFrom n ((k, v) :: m) = true ↔ n ≤ k ∧ v ≠ Memory.unlisted ∧ Memory.wfFrom (k + 1) m = true := by
  simp [Memory.wfFrom, and_assoc]

theorem Memory.wfFrom_le {n n' : Nat} {m : Memory} (h : n' ≤ n) (hm : Memory.wfFrom n m = true) :
    Memory.wfFrom n' m = true := by
  cases m with
  | nil => rfl
  | cons c m =>
    obtain ⟨k, v⟩ := c
    rw [Memory.wfFrom_cons] at hm ⊢
    exact ⟨h.trans hm.1, hm.2⟩

theorem Memory.wfFrom_erase (m : Memory) (a : Nat) :
    ∀ n, Memory.wfFrom n m = true → Memory.wfFrom n (Memory.erase m a) = true := by
  induction m with
  | nil => exact fun _ h => h
  | cons c m ih =>
    obtain ⟨k, v⟩ := c
    intro n h
    rw [Memory.wfFrom_cons] at h
    by_cases hk : k = a
    · rw [Memory.erase, if_pos hk]
      exact ih n (Memory.wfFrom_le (by omega) h.2.2)
    · rw [Memory.erase, if_neg hk, Memory.wfFrom_cons]
      exact ⟨h.1, h.2.1, ih _ h.2.2⟩

theorem Memory.wfFrom_insert (m : Memory) (a : Nat) (w : Word) (hw : w ≠ Memory.unlisted) :
    ∀ n, n ≤ a → Memory.wfFrom n m = true → Memory.read m a = Memory.unlisted →
      Memory.wfFrom n (Memory.insert m a w) = true := by
  induction m with
  | nil => intro n hn _ _; simp [Memory.insert, hn, hw]
  | cons c m ih =>
    obtain ⟨k, v⟩ := c
    intro n hn h hr
    rw [Memory.wfFrom_cons] at h
    by_cases hlt : a < k
    · rw [Memory.insert, if_pos hlt]
      simp only [Memory.wfFrom_cons]
      exact ⟨hn, hw, by omega, h.2.1, h.2.2⟩
    · have hk : k ≠ a := by
        rintro rfl
        simp only [Memory.read, if_pos] at hr
        exact h.2.1 hr
      rw [Memory.insert, if_neg hlt, Memory.wfFrom_cons]
      rw [Memory.read, if_neg hk] at hr
      exact ⟨h.1, h.2.1, ih _ (by omega) h.2.2 hr⟩

/-- A write keeps the canonical form. -/
theorem Memory.wf_write (m : Memory) (a : Nat) (w : Word) (h : Memory.wf m = true) :
    Memory.wf (Memory.write m a w) = true := by
  have he : Memory.wfFrom 0 (Memory.erase m a) = true := Memory.wfFrom_erase m a 0 h
  by_cases hw : w = Memory.unlisted
  · simpa [Memory.write, hw, Memory.wf] using he
  · simpa [Memory.write, hw, Memory.wf] using
      Memory.wfFrom_insert _ a w hw 0 (Nat.zero_le _) he (by simp [Memory.read_erase])

@[simp] theorem Memory.within_nil (n : Nat) : Memory.within [] n = true := rfl

@[simp] theorem Memory.within_cons (k : Nat) (v : Word) (m : Memory) (n : Nat) :
    Memory.within ((k, v) :: m) n = true ↔ k < n ∧ Memory.within m n = true := by
  simp [Memory.within]

theorem Memory.within_erase (m : Memory) (a n : Nat) (h : Memory.within m n = true) :
    Memory.within (Memory.erase m a) n = true := by
  induction m with
  | nil => rfl
  | cons c m ih =>
    obtain ⟨k, v⟩ := c
    rw [Memory.within_cons] at h
    rw [Memory.erase]
    split
    · exact ih h.2
    · exact (Memory.within_cons ..).2 ⟨h.1, ih h.2⟩

theorem Memory.within_insert (m : Memory) (a n : Nat) (w : Word) (ha : a < n) (h : Memory.within m n = true) :
    Memory.within (Memory.insert m a w) n = true := by
  induction m with
  | nil => simp [Memory.insert, ha]
  | cons c m ih =>
    obtain ⟨k, v⟩ := c
    rw [Memory.within_cons] at h
    rw [Memory.insert]
    split
    · simp [ha, h]
    · exact (Memory.within_cons ..).2 ⟨h.1, ih h.2⟩

/-- A write below `n` keeps every listed index below `n`. -/
theorem Memory.within_write (m : Memory) (a n : Nat) (w : Word) (ha : a < n) (h : Memory.within m n = true) :
    Memory.within (Memory.write m a w) n = true := by
  rw [Memory.write]
  split
  · exact Memory.within_erase m a n h
  · exact Memory.within_insert _ a n w ha (Memory.within_erase m a n h)

/-- Loading words keeps the canonical form. -/
theorem Memory.wf_load (ws : List Word) :
    ∀ (m : Memory) (a : Nat), Memory.wf m = true → Memory.wf (Memory.load m a ws) = true := by
  induction ws with
  | nil => exact fun _ _ h => h
  | cons w ws ih => exact fun m a h => ih _ _ (Memory.wf_write m a w h)

/-- Read after loading consecutive words: the loaded word in their range, the old word elsewhere. -/
theorem Memory.read_load (ws : List Word) :
    ∀ (m : Memory) (a b : Nat), Memory.read (Memory.load m a ws) b =
      if a ≤ b then (ws[b - a]?).getD (Memory.read m b) else Memory.read m b := by
  induction ws with
  | nil => intro m a b; simp [Memory.load]
  | cons w ws ih =>
    intro m a b
    rw [Memory.load, ih, Memory.read_write]
    rcases Nat.lt_trichotomy a b with h | h | h
    · have : b - a = (b - (a + 1)) + 1 := by omega
      rw [if_pos (show a + 1 ≤ b by omega), if_pos (show a ≤ b by omega), if_neg (by omega), this, List.getElem?_cons_succ]
    · subst h
      simp
    · rw [if_neg (by omega), if_neg (by omega), if_neg (by omega)]

/-! ### Equal readings are equal data -/

theorem Memory.read_of_wfFrom (m : Memory) :
    ∀ (n a : Nat), a < n → Memory.wfFrom n m = true → Memory.read m a = Memory.unlisted := by
  induction m with
  | nil => exact fun _ _ _ _ => rfl
  | cons c m ih =>
    obtain ⟨k, v⟩ := c
    intro n a ha h
    rw [Memory.wfFrom_cons] at h
    rw [Memory.read, if_neg (by omega)]
    exact ih (k + 1) a (by omega) h.2.2

theorem Memory.eq_of_wfFrom (m : Memory) :
    ∀ (m' : Memory) (n n' : Nat), Memory.wfFrom n m = true → Memory.wfFrom n' m' = true →
      (∀ a, Memory.read m a = Memory.read m' a) → m = m' := by
  induction m with
  | nil =>
    intro m' n n' _ h' heq
    cases m' with
    | nil => rfl
    | cons c m' =>
      obtain ⟨k, v⟩ := c
      rw [Memory.wfFrom_cons] at h'
      have := heq k
      simp only [Memory.read, if_pos] at this
      exact absurd this.symm h'.2.1
  | cons c m ih =>
    obtain ⟨k, v⟩ := c
    intro m' n n' h h' heq
    rw [Memory.wfFrom_cons] at h
    cases m' with
    | nil =>
      have := heq k
      simp only [Memory.read, if_pos] at this
      exact absurd this h.2.1
    | cons c' m' =>
      obtain ⟨k', v'⟩ := c'
      rw [Memory.wfFrom_cons] at h'
      have hk : k = k' := by
        rcases Nat.lt_trichotomy k k' with hlt | he | hgt
        · have := heq k
          rw [Memory.read, if_pos rfl, Memory.read, if_neg (by omega),
            Memory.read_of_wfFrom m' (k' + 1) k (by omega) h'.2.2] at this
          exact absurd this h.2.1
        · exact he
        · have := heq k'
          rw [Memory.read, if_neg (by omega), Memory.read_of_wfFrom m (k + 1) k' (by omega) h.2.2, Memory.read,
            if_pos rfl] at this
          exact absurd this.symm h'.2.1
      subst hk
      have hv : v = v' := by
        have := heq k
        rwa [Memory.read, if_pos rfl, Memory.read, if_pos rfl] at this
      subst hv
      rw [ih m' (k + 1) (k + 1) h.2.2 h'.2.2]
      intro a
      by_cases ha : k = a
      · subst ha
        rw [Memory.read_of_wfFrom m (k + 1) k (by omega) h.2.2,
          Memory.read_of_wfFrom m' (k + 1) k (by omega) h'.2.2]
      · have := heq a
        rwa [Memory.read, if_neg ha, Memory.read, if_neg ha] at this

/-- Two canonical memories that read alike are the same list. -/
theorem Memory.eq_of_read_eq (m m' : Memory) (h : Memory.wf m = true) (h' : Memory.wf m' = true)
    (heq : ∀ a, Memory.read m a = Memory.read m' a) : m = m' :=
  Memory.eq_of_wfFrom m m' 0 0 h h' heq

end Sys2Proof.Machine
end

