-- ==== Sys2Proof/Laws/State.lean ====
section
/-! SUPPORT. One lemma per field per update of the state (`Sys2Proof/Machine/Ops.lean`), so that no proof unfolds a
record update. -/

namespace Sys2Proof.Machine

/-! ### `State.setFlag` -/

@[simp] theorem State.setFlag_regs (s : State) (b : Bool) : (s.setFlag b).regs = s.regs := rfl
@[simp] theorem State.setFlag_ip (s : State) (b : Bool) : (s.setFlag b).ip = s.ip := rfl
@[simp] theorem State.setFlag_sp (s : State) (b : Bool) : (s.setFlag b).sp = s.sp := rfl
@[simp] theorem State.setFlag_flag (s : State) (b : Bool) : (s.setFlag b).flag = b := rfl
@[simp] theorem State.setFlag_mem (s : State) (b : Bool) : (s.setFlag b).mem = s.mem := rfl
@[simp] theorem State.setFlag_status (s : State) (b : Bool) : (s.setFlag b).status = s.status := rfl
@[simp] theorem State.setFlag_fault (s : State) (b : Bool) : (s.setFlag b).fault = s.fault := rfl
@[simp] theorem State.setFlag_out (s : State) (b : Bool) : (s.setFlag b).out = s.out := rfl
@[simp] theorem State.setFlag_cfg (s : State) (b : Bool) : (s.setFlag b).cfg = s.cfg := rfl

/-! ### `State.memWrite` -/

@[simp] theorem State.memWrite_regs (s : State) (n : Nat) (w : Word) : (s.memWrite n w).regs = s.regs := rfl
@[simp] theorem State.memWrite_ip (s : State) (n : Nat) (w : Word) : (s.memWrite n w).ip = s.ip := rfl
@[simp] theorem State.memWrite_sp (s : State) (n : Nat) (w : Word) : (s.memWrite n w).sp = s.sp := rfl
@[simp] theorem State.memWrite_flag (s : State) (n : Nat) (w : Word) : (s.memWrite n w).flag = s.flag := rfl
@[simp] theorem State.memWrite_mem (s : State) (n : Nat) (w : Word) : (s.memWrite n w).mem = Memory.write s.mem n w := rfl
@[simp] theorem State.memWrite_status (s : State) (n : Nat) (w : Word) : (s.memWrite n w).status = s.status := rfl
@[simp] theorem State.memWrite_fault (s : State) (n : Nat) (w : Word) : (s.memWrite n w).fault = s.fault := rfl
@[simp] theorem State.memWrite_out (s : State) (n : Nat) (w : Word) : (s.memWrite n w).out = s.out := rfl
@[simp] theorem State.memWrite_cfg (s : State) (n : Nat) (w : Word) : (s.memWrite n w).cfg = s.cfg := rfl

/-! ### `State.writeReg` -/

@[simp] theorem State.writeReg_regs (s : State) (r : Reg) (w : Word) : (s.writeReg r w).regs = Regs.write s.regs r w := rfl
@[simp] theorem State.writeReg_ip (s : State) (r : Reg) (w : Word) : (s.writeReg r w).ip = s.ip := rfl
@[simp] theorem State.writeReg_sp (s : State) (r : Reg) (w : Word) : (s.writeReg r w).sp = s.sp := rfl
@[simp] theorem State.writeReg_flag (s : State) (r : Reg) (w : Word) : (s.writeReg r w).flag = s.flag := rfl
@[simp] theorem State.writeReg_mem (s : State) (r : Reg) (w : Word) : (s.writeReg r w).mem = s.mem := rfl
@[simp] theorem State.writeReg_status (s : State) (r : Reg) (w : Word) : (s.writeReg r w).status = s.status := rfl
@[simp] theorem State.writeReg_fault (s : State) (r : Reg) (w : Word) : (s.writeReg r w).fault = s.fault := rfl
@[simp] theorem State.writeReg_out (s : State) (r : Reg) (w : Word) : (s.writeReg r w).out = s.out := rfl
@[simp] theorem State.writeReg_cfg (s : State) (r : Reg) (w : Word) : (s.writeReg r w).cfg = s.cfg := rfl

/-! ### `State.jump` -/

@[simp] theorem State.jump_regs (s : State) (t : Int) : (s.jump t).regs = s.regs := rfl
@[simp] theorem State.jump_ip (s : State) (t : Int) : (s.jump t).ip = t := rfl
@[simp] theorem State.jump_sp (s : State) (t : Int) : (s.jump t).sp = s.sp := rfl
@[simp] theorem State.jump_flag (s : State) (t : Int) : (s.jump t).flag = s.flag := rfl
@[simp] theorem State.jump_mem (s : State) (t : Int) : (s.jump t).mem = s.mem := rfl
@[simp] theorem State.jump_status (s : State) (t : Int) : (s.jump t).status = s.status := rfl
@[simp] theorem State.jump_fault (s : State) (t : Int) : (s.jump t).fault = s.fault := rfl
@[simp] theorem State.jump_out (s : State) (t : Int) : (s.jump t).out = s.out := rfl
@[simp] theorem State.jump_cfg (s : State) (t : Int) : (s.jump t).cfg = s.cfg := rfl

/-! ### `State.advance` -/

@[simp] theorem State.advance_regs (s : State) (n : Nat) : (s.advance n).regs = s.regs := rfl
@[simp] theorem State.advance_ip (s : State) (n : Nat) : (s.advance n).ip = s.ip + n := rfl
@[simp] theorem State.advance_sp (s : State) (n : Nat) : (s.advance n).sp = s.sp := rfl
@[simp] theorem State.advance_flag (s : State) (n : Nat) : (s.advance n).flag = s.flag := rfl
@[simp] theorem State.advance_mem (s : State) (n : Nat) : (s.advance n).mem = s.mem := rfl
@[simp] theorem State.advance_status (s : State) (n : Nat) : (s.advance n).status = s.status := rfl
@[simp] theorem State.advance_fault (s : State) (n : Nat) : (s.advance n).fault = s.fault := rfl
@[simp] theorem State.advance_out (s : State) (n : Nat) : (s.advance n).out = s.out := rfl
@[simp] theorem State.advance_cfg (s : State) (n : Nat) : (s.advance n).cfg = s.cfg := rfl

/-! ### `State.emit` -/

@[simp] theorem State.emit_regs (s : State) (w : Word) : (s.emit w).regs = s.regs := rfl
@[simp] theorem State.emit_ip (s : State) (w : Word) : (s.emit w).ip = s.ip := rfl
@[simp] theorem State.emit_sp (s : State) (w : Word) : (s.emit w).sp = s.sp := rfl
@[simp] theorem State.emit_flag (s : State) (w : Word) : (s.emit w).flag = s.flag := rfl
@[simp] theorem State.emit_mem (s : State) (w : Word) : (s.emit w).mem = s.mem := rfl
@[simp] theorem State.emit_status (s : State) (w : Word) : (s.emit w).status = s.status := rfl
@[simp] theorem State.emit_fault (s : State) (w : Word) : (s.emit w).fault = s.fault := rfl
@[simp] theorem State.emit_out (s : State) (w : Word) : (s.emit w).out = s.out ++ [w] := rfl
@[simp] theorem State.emit_cfg (s : State) (w : Word) : (s.emit w).cfg = s.cfg := rfl

/-! ### `State.halt` -/

@[simp] theorem State.halt_regs (s : State) : s.halt.regs = s.regs := rfl
@[simp] theorem State.halt_ip (s : State) : s.halt.ip = s.ip := rfl
@[simp] theorem State.halt_sp (s : State) : s.halt.sp = s.sp := rfl
@[simp] theorem State.halt_flag (s : State) : s.halt.flag = s.flag := rfl
@[simp] theorem State.halt_mem (s : State) : s.halt.mem = s.mem := rfl
@[simp] theorem State.halt_status (s : State) : s.halt.status = .exited := rfl
@[simp] theorem State.halt_fault (s : State) : s.halt.fault = s.fault := rfl
@[simp] theorem State.halt_out (s : State) : s.halt.out = s.out := rfl
@[simp] theorem State.halt_cfg (s : State) : s.halt.cfg = s.cfg := rfl

/-! ### `State.raise` -/

@[simp] theorem State.raise_regs (s : State) (f : FaultCode) (a b : Int) : (s.raise f a b).regs = s.regs := rfl
@[simp] theorem State.raise_ip (s : State) (f : FaultCode) (a b : Int) : (s.raise f a b).ip = s.ip := rfl
@[simp] theorem State.raise_sp (s : State) (f : FaultCode) (a b : Int) : (s.raise f a b).sp = s.sp := rfl
@[simp] theorem State.raise_flag (s : State) (f : FaultCode) (a b : Int) : (s.raise f a b).flag = s.flag := rfl
@[simp] theorem State.raise_mem (s : State) (f : FaultCode) (a b : Int) : (s.raise f a b).mem = s.mem := rfl
@[simp] theorem State.raise_status (s : State) (f : FaultCode) (a b : Int) : (s.raise f a b).status = .faulted := rfl
@[simp] theorem State.raise_fault (s : State) (f : FaultCode) (a b : Int) : (s.raise f a b).fault = ⟨f, a, b⟩ := rfl
@[simp] theorem State.raise_out (s : State) (f : FaultCode) (a b : Int) : (s.raise f a b).out = s.out := rfl
@[simp] theorem State.raise_cfg (s : State) (f : FaultCode) (a b : Int) : (s.raise f a b).cfg = s.cfg := rfl

/-! ### `State.push` -/

@[simp] theorem State.push_regs (s : State) (w : Word) : (s.push w).regs = s.regs := rfl
@[simp] theorem State.push_ip (s : State) (w : Word) : (s.push w).ip = s.ip := rfl
@[simp] theorem State.push_sp (s : State) (w : Word) : (s.push w).sp = s.sp + 1 := rfl
@[simp] theorem State.push_flag (s : State) (w : Word) : (s.push w).flag = s.flag := rfl
@[simp] theorem State.push_mem (s : State) (w : Word) : (s.push w).mem = Memory.write s.mem s.sp w := rfl
@[simp] theorem State.push_status (s : State) (w : Word) : (s.push w).status = s.status := rfl
@[simp] theorem State.push_fault (s : State) (w : Word) : (s.push w).fault = s.fault := rfl
@[simp] theorem State.push_out (s : State) (w : Word) : (s.push w).out = s.out := rfl
@[simp] theorem State.push_cfg (s : State) (w : Word) : (s.push w).cfg = s.cfg := rfl

/-! ### `State.dropTop` -/

@[simp] theorem State.dropTop_regs (s : State) : s.dropTop.regs = s.regs := rfl
@[simp] theorem State.dropTop_ip (s : State) : s.dropTop.ip = s.ip := rfl
@[simp] theorem State.dropTop_sp (s : State) : s.dropTop.sp = s.sp - 1 := rfl
@[simp] theorem State.dropTop_flag (s : State) : s.dropTop.flag = s.flag := rfl
@[simp] theorem State.dropTop_mem (s : State) : s.dropTop.mem = s.mem := rfl
@[simp] theorem State.dropTop_status (s : State) : s.dropTop.status = s.status := rfl
@[simp] theorem State.dropTop_fault (s : State) : s.dropTop.fault = s.fault := rfl
@[simp] theorem State.dropTop_out (s : State) : s.dropTop.out = s.out := rfl
@[simp] theorem State.dropTop_cfg (s : State) : s.dropTop.cfg = s.cfg := rfl

/-! ### Registers -/

@[simp] theorem Regs.read_write_same (x : Regs) (r : Reg) (w : Word) : (x.write r w).read r = w := by
  cases r <;> rfl

theorem Regs.read_write_other (x : Regs) (r p : Reg) (w : Word) (h : p ≠ r) : (x.write r w).read p = x.read p := by
  cases r <;> cases p <;> first | rfl | exact absurd rfl h

end Sys2Proof.Machine
end

