-- ==== Sys2Proof/Laws/Ops.lean ====
section
/-! SUPPORT. For each shared operation, what it can do, said once. -/

namespace Sys2Proof.Machine

/-! ### Operands -/

theorem Reg.ofWord?_eq_some (w : Word) (q : Reg) : Reg.ofWord? w = some q ↔ w.toInt = q.num := by
  unfold Reg.ofWord?
  cases q <;> simp only [Reg.num] <;> split_ifs <;> simp_all

theorem Reg.ofWord?_eq_none (w : Word) : Reg.ofWord? w = none ↔ w.toInt < 0 ∨ 3 ≤ w.toInt := by
  unfold Reg.ofWord?
  split_ifs <;> simp <;> omega

theorem registerIndexOk_iff (w : Word) : registerIndexOk w = true ↔ (Reg.ofWord? w).isSome = true := by
  rw [← Option.ne_none_iff_isSome, ne_eq, Reg.ofWord?_eq_none]
  simp only [registerIndexOk, Bool.and_eq_true, decide_eq_true_eq]
  omega

theorem Reg.num_range (q : Reg) : 0 ≤ q.num ∧ q.num < 3 := by
  cases q <;> simp [Reg.num]

/-! ### Memory access -/

theorem State.memRead_eq_some (s : State) (a : Int) (w : Word) :
    s.memRead a = some w ↔ (0 ≤ a ∧ a < s.cfg.len) ∧ Memory.read s.mem a.toNat = w := by
  unfold State.memRead
  split <;> simp_all

theorem State.memRead_eq_none (s : State) (a : Int) : s.memRead a = none ↔ ¬ (0 ≤ a ∧ a < s.cfg.len) := by
  unfold State.memRead
  split <;> simp_all

theorem State.memRead_nat (s : State) (a : Nat) (h : a < s.cfg.len) :
    s.memRead (a : Int) = some (Memory.read s.mem a) :=
  (s.memRead_eq_some a _).2 ⟨⟨by omega, by exact_mod_cast h⟩, by simp⟩

/-! ### The checks of stages 4 and 5 -/

theorem regThen_of_num (w : Word) (s : State) (k : Reg → Result) (q : Reg) (h : w.toInt = q.num) :
    regThen w s k = k q := by
  rw [regThen, (Reg.ofWord?_eq_some w q).2 h]

theorem regThen_of_bad (w : Word) (s : State) (k : Reg → Result) (h : w.toInt < 0 ∨ 3 ≤ w.toInt) :
    regThen w s k = .next (s.raise .registerIndex w.toInt s.ip) := by
  rw [regThen, (Reg.ofWord?_eq_none w).2 h]

/-- All that stage 4 can do. -/
theorem regThen_cases (w : Word) (s : State) (k : Reg → Result) :
    (∃ q : Reg, w.toInt = q.num ∧ regThen w s k = k q) ∨
    ((w.toInt < 0 ∨ 3 ≤ w.toInt) ∧ regThen w s k = .next (s.raise .registerIndex w.toInt s.ip)) := by
  cases h : Reg.ofWord? w with
  | some q => exact .inl ⟨q, (Reg.ofWord?_eq_some w q).1 h, by rw [regThen, h]⟩
  | none => exact .inr ⟨(Reg.ofWord?_eq_none w).1 h, by rw [regThen, h]⟩

theorem pushThen_of_lt (w : Word) (s : State) (k : State → Result) (h : s.sp < s.cfg.len) :
    pushThen w s k = k (s.push w) := by
  rw [pushThen, if_neg (by omega)]

theorem pushThen_of_le (w : Word) (s : State) (k : State → Result) (h : s.cfg.len ≤ s.sp) :
    pushThen w s k = .next (s.raise .stackOverflow s.sp s.ip) := by
  rw [pushThen, if_pos h]

/-- All that a push can do. -/
theorem pushThen_cases (w : Word) (s : State) (k : State → Result) :
    (s.sp < s.cfg.len ∧ pushThen w s k = k (s.push w)) ∨
    (s.cfg.len ≤ s.sp ∧ pushThen w s k = .next (s.raise .stackOverflow s.sp s.ip)) := by
  rcases Nat.lt_or_ge s.sp s.cfg.len with h | h
  · exact .inl ⟨h, pushThen_of_lt w s k h⟩
  · exact .inr ⟨h, pushThen_of_le w s k h⟩

theorem popThen_of_le (s : State) (k : Word → State → Result) (h : s.sp ≤ s.cfg.stackBase) :
    popThen s k = .next (s.raise .stackUnderflow s.sp s.ip) := by
  rw [popThen, if_pos h]

theorem popThen_of_lt (s : State) (k : Word → State → Result) (h : s.cfg.stackBase < s.sp) (hl : s.sp ≤ s.cfg.len) :
    popThen s k = k (Memory.read s.mem (s.sp - 1)) s.dropTop := by
  rw [popThen, if_neg (by omega), State.memRead_nat s (s.sp - 1) (by omega)]

theorem popThen_of_outside (s : State) (k : Word → State → Result) (h : s.cfg.stackBase < s.sp)
    (hl : s.cfg.len < s.sp) : popThen s k = .fault (.outsideMemory (s.sp - 1)) := by
  rw [popThen, if_neg (by omega), (s.memRead_eq_none _).2 (by omega)]

/-- All that a pop can do. -/
theorem popThen_cases (s : State) (k : Word → State → Result) :
    (s.sp ≤ s.cfg.stackBase ∧ popThen s k = .next (s.raise .stackUnderflow s.sp s.ip)) ∨
    (s.cfg.stackBase < s.sp ∧ s.sp ≤ s.cfg.len ∧ popThen s k = k (Memory.read s.mem (s.sp - 1)) s.dropTop) ∨
    (s.cfg.stackBase < s.sp ∧ s.cfg.len < s.sp ∧ popThen s k = .fault (.outsideMemory (s.sp - 1))) := by
  rcases Nat.lt_or_ge s.cfg.stackBase s.sp with h | h
  · rcases Nat.lt_or_ge s.cfg.len s.sp with hl | hl
    · exact .inr (.inr ⟨h, hl, popThen_of_outside s k h hl⟩)
    · exact .inr (.inl ⟨h, hl, popThen_of_lt s k h hl⟩)
  · exact .inl ⟨h, popThen_of_le s k h⟩

end Sys2Proof.Machine
end

