-- ==== Sys2Proof/Laws/Exec.lean ====
section
/-! SUPPORT. What each instruction and the step can do, said once: if it answers a next state, then one of these
cases holds. Later proofs cite these instead of unfolding a meaning. -/

namespace Sys2Proof.Machine

open Host

theorem execCall_cases {addr : Word} {s t : State} (h : execCall addr s = .next t) :
    (s.sp < s.cfg.len ∧ t = (s.push (wrap32 (s.ip + 2))).jump addr.toInt) ∨
    (s.cfg.len ≤ s.sp ∧ t = s.raise .stackOverflow s.sp s.ip) := by
  unfold execCall at h
  rcases pushThen_cases (wrap32 (s.ip + 2)) s (fun t => .next (t.jump (absoluteTarget addr))) with ⟨hs, e⟩ | ⟨hs, e⟩ <;>
    rw [e] at h <;> cases h
  · exact .inl ⟨hs, rfl⟩
  · exact .inr ⟨hs, rfl⟩

theorem execRet_cases {s t : State} (h : execRet s = .next t) :
    (s.cfg.stackBase < s.sp ∧ s.sp ≤ s.cfg.len ∧ t = s.dropTop.jump (Memory.read s.mem (s.sp - 1)).toInt) ∨
    (s.sp ≤ s.cfg.stackBase ∧ t = s.raise .stackUnderflow s.sp s.ip) := by
  unfold execRet at h
  rcases popThen_cases s (fun w t => .next (t.jump (absoluteTarget w))) with ⟨hs, e⟩ | ⟨hs, hl, e⟩ | ⟨_, _, e⟩ <;>
    rw [e] at h <;> cases h
  · exact .inr ⟨hs, rfl⟩
  · exact .inl ⟨hs, hl, rfl⟩

theorem execCmp_cases {r1 c : Word} {s t : State} (h : execCmp r1 c s = .next t) :
    (∃ q : Reg, r1.toInt = q.num ∧ t = (s.setFlag (compareFlag (s.regs.read q) c)).advance 3) ∨
    ((r1.toInt < 0 ∨ 3 ≤ r1.toInt) ∧ t = s.raise .registerIndex r1.toInt s.ip) := by
  unfold execCmp at h
  rcases regThen_cases r1 s (fun q => .next ((s.setFlag (compareFlag (s.regs.read q) c)).advance 3)) with
    ⟨q, hq, e⟩ | ⟨hq, e⟩ <;> rw [e] at h <;> cases h
  · exact .inl ⟨q, hq, rfl⟩
  · exact .inr ⟨hq, rfl⟩

theorem execJne_cases {offset : Word} {s t : State} (h : execJne offset s = .next t) :
    (s.flag = false ∧ t = s.jump (s.ip + offset.toInt)) ∨ (s.flag = true ∧ t = s.advance 2) := by
  unfold execJne at h
  cases h
  cases hf : s.flag
  · exact .inl ⟨rfl, rfl⟩
  · exact .inr ⟨rfl, rfl⟩

theorem execPush_cases {r : Word} {s t : State} (h : execPush r s = .next t) :
    (∃ q : Reg, r.toInt = q.num ∧ s.sp < s.cfg.len ∧ t = (s.push (s.regs.read q)).advance 2) ∨
    ((r.toInt < 0 ∨ 3 ≤ r.toInt) ∧ t = s.raise .registerIndex r.toInt s.ip) ∨
    (∃ q : Reg, r.toInt = q.num ∧ s.cfg.len ≤ s.sp ∧ t = s.raise .stackOverflow s.sp s.ip) := by
  unfold execPush at h
  rcases regThen_cases r s (fun q => pushThen (s.regs.read q) s fun t => .next (t.advance 2)) with
    ⟨q, hq, e⟩ | ⟨hq, e⟩ <;> rw [e] at h
  · rcases pushThen_cases (s.regs.read q) s (fun t => .next (t.advance 2)) with ⟨hs, e⟩ | ⟨hs, e⟩ <;>
      rw [e] at h <;> cases h
    · exact .inl ⟨q, hq, hs, rfl⟩
    · exact .inr (.inr ⟨q, hq, hs, rfl⟩)
  · cases h
    exact .inr (.inl ⟨hq, rfl⟩)

theorem execPop_cases {r : Word} {s t : State} (h : execPop r s = .next t) :
    (∃ q : Reg, r.toInt = q.num ∧ s.cfg.stackBase < s.sp ∧ s.sp ≤ s.cfg.len ∧
      t = (s.dropTop.writeReg q (Memory.read s.mem (s.sp - 1))).advance 2) ∨
    ((r.toInt < 0 ∨ 3 ≤ r.toInt) ∧ t = s.raise .registerIndex r.toInt s.ip) ∨
    (∃ q : Reg, r.toInt = q.num ∧ s.sp ≤ s.cfg.stackBase ∧ t = s.raise .stackUnderflow s.sp s.ip) := by
  unfold execPop at h
  rcases regThen_cases r s (fun q => popThen s fun w t => .next ((t.writeReg q w).advance 2)) with
    ⟨q, hq, e⟩ | ⟨hq, e⟩ <;> rw [e] at h
  · rcases popThen_cases s (fun w t => .next ((t.writeReg q w).advance 2)) with ⟨hs, e⟩ | ⟨hs, hl, e⟩ | ⟨_, _, e⟩ <;>
      rw [e] at h <;> cases h
    · exact .inr (.inr ⟨q, hq, hs, rfl⟩)
    · exact .inl ⟨q, hq, hs, hl, rfl⟩
  · cases h
    exact .inr (.inl ⟨hq, rfl⟩)

theorem execSet_cases {r c : Word} {s t : State} (h : execSet r c s = .next t) :
    (∃ q : Reg, r.toInt = q.num ∧ t = (s.writeReg q c).advance 3) ∨
    ((r.toInt < 0 ∨ 3 ≤ r.toInt) ∧ t = s.raise .registerIndex r.toInt s.ip) := by
  unfold execSet at h
  rcases regThen_cases r s (fun q => .next ((s.writeReg q c).advance 3)) with ⟨q, hq, e⟩ | ⟨hq, e⟩ <;>
    rw [e] at h <;> cases h
  · exact .inl ⟨q, hq, rfl⟩
  · exact .inr ⟨hq, rfl⟩

/-- Two register operands, checked in order (R62). -/
theorem regThen_twice_cases {v w : Word} {s t : State} {f : Reg → Reg → State}
    (h : (regThen v s fun a => regThen w s fun d => .next (f a d)) = .next t) :
    (∃ a d : Reg, v.toInt = a.num ∧ w.toInt = d.num ∧ t = f a d) ∨
    ((v.toInt < 0 ∨ 3 ≤ v.toInt) ∧ t = s.raise .registerIndex v.toInt s.ip) ∨
    (∃ a : Reg, v.toInt = a.num ∧ (w.toInt < 0 ∨ 3 ≤ w.toInt) ∧ t = s.raise .registerIndex w.toInt s.ip) := by
  rcases regThen_cases v s (fun a => regThen w s fun d => .next (f a d)) with ⟨a, ha, e⟩ | ⟨ha, e⟩ <;> rw [e] at h
  · rcases regThen_cases w s (fun d => .next (f a d)) with ⟨d, hd, e⟩ | ⟨hd, e⟩ <;> rw [e] at h <;> cases h
    · exact .inl ⟨a, d, ha, hd, rfl⟩
    · exact .inr (.inr ⟨a, ha, hd, rfl⟩)
  · cases h
    exact .inr (.inl ⟨ha, rfl⟩)

theorem execCopy_cases {rSrc rDst : Word} {s t : State} (h : execCopy rSrc rDst s = .next t) :
    (∃ a d : Reg, rSrc.toInt = a.num ∧ rDst.toInt = d.num ∧ t = (s.writeReg d (s.regs.read a)).advance 3) ∨
    ((rSrc.toInt < 0 ∨ 3 ≤ rSrc.toInt) ∧ t = s.raise .registerIndex rSrc.toInt s.ip) ∨
    (∃ a : Reg, rSrc.toInt = a.num ∧ (rDst.toInt < 0 ∨ 3 ≤ rDst.toInt) ∧
      t = s.raise .registerIndex rDst.toInt s.ip) :=
  regThen_twice_cases h

theorem execAdd_cases {rDst rSrc : Word} {s t : State} (h : execAdd rDst rSrc s = .next t) :
    (∃ d a : Reg, rDst.toInt = d.num ∧ rSrc.toInt = a.num ∧
      t = (s.writeReg d (wrap32 ((s.regs.read d).toInt + (s.regs.read a).toInt))).advance 3) ∨
    ((rDst.toInt < 0 ∨ 3 ≤ rDst.toInt) ∧ t = s.raise .registerIndex rDst.toInt s.ip) ∨
    (∃ d : Reg, rDst.toInt = d.num ∧ (rSrc.toInt < 0 ∨ 3 ≤ rSrc.toInt) ∧
      t = s.raise .registerIndex rSrc.toInt s.ip) :=
  regThen_twice_cases h

theorem execDec_cases {r : Word} {s t : State} (h : execDec r s = .next t) :
    (∃ q : Reg, r.toInt = q.num ∧ t = (s.writeReg q (wrap32 ((s.regs.read q).toInt - 1))).advance 2) ∨
    ((r.toInt < 0 ∨ 3 ≤ r.toInt) ∧ t = s.raise .registerIndex r.toInt s.ip) := by
  unfold execDec at h
  rcases regThen_cases r s (fun q => .next ((s.writeReg q (wrap32 ((s.regs.read q).toInt - 1))).advance 2)) with
    ⟨q, hq, e⟩ | ⟨hq, e⟩ <;> rw [e] at h <;> cases h
  · exact .inl ⟨q, hq, rfl⟩
  · exact .inr ⟨hq, rfl⟩

theorem execPrint_cases {r : Word} {s t : State} (h : execPrint r s = .next t) :
    (∃ q : Reg, r.toInt = q.num ∧ t = (s.emit (s.regs.read q)).advance 2) ∨
    ((r.toInt < 0 ∨ 3 ≤ r.toInt) ∧ t = s.raise .registerIndex r.toInt s.ip) := by
  unfold execPrint at h
  rcases regThen_cases r s (fun q => .next ((s.emit (s.regs.read q)).advance 2)) with ⟨q, hq, e⟩ | ⟨hq, e⟩ <;>
    rw [e] at h <;> cases h
  · exact .inl ⟨q, hq, rfl⟩
  · exact .inr ⟨hq, rfl⟩

theorem execExit_cases {s t : State} (h : execExit s = .next t) : t = s.halt := by
  unfold execExit at h
  cases h
  rfl

/-- All that a step can do. -/
theorem step_cases {s t : State} (h : step s = .next t) :
    (s.status ≠ .running ∧ t = s) ∨
    (s.status = .running ∧ ∃ e, s.fetch = .error e ∧ t = s.raiseFetch e) ∨
    (s.status = .running ∧ ∃ i, s.fetch = .ok i ∧ exec i s = .next t) := by
  unfold step at h
  cases hs : s.status <;> simp only [hs] at h
  · cases hf : s.fetch with
    | ok i =>
      rw [hf] at h
      exact .inr (.inr ⟨rfl, i, rfl, h⟩)
    | error e =>
      rw [hf] at h
      cases h
      exact .inr (.inl ⟨rfl, e, rfl, rfl⟩)
  · cases h
    exact .inl ⟨nofun, rfl⟩
  · cases h
    exact .inl ⟨nofun, rfl⟩

/-- What a step of the machine behind the host's interface is. -/
theorem core_step (s : State) : Sys2Proof.core.step s = step s := rfl

theorem run_zero (s : State) : Core.run Sys2Proof.core 0 s = .next s := rfl

theorem run_succ (k : Nat) (s : State) :
    Core.run Sys2Proof.core (k + 1) s =
      match step s with
      | .next s' => Core.run Sys2Proof.core k s'
      | .fault r => .fault r
      | .refused r => .refused r := by
  refine (Core.run.eq_2 Sys2Proof.core s k).trans ?_
  have hc := core_step s
  cases h : step s <;> (rw [h] at hc; rw [hc])

/-- A run of one step and then the rest. -/
theorem run_succ_of_next {k : Nat} {s t : State} (h : step s = .next t) :
    Core.run Sys2Proof.core (k + 1) s = Core.run Sys2Proof.core k t := by
  rw [run_succ, h]

/-- What holds at the start of a run and is kept by every step holds at its end. -/
theorem run_induction {P : State → Prop} (hstep : ∀ s t, P s → step s = .next t → P t) :
    ∀ (k : Nat) (s t : State), P s → Core.run Sys2Proof.core k s = .next t → P t := by
  intro k
  induction k with
  | zero =>
    intro s t hs h
    rw [run_zero] at h
    cases h
    exact hs
  | succ k ih =>
    intro s t hs h
    rw [run_succ] at h
    cases hn : step s with
    | next s' =>
      rw [hn] at h
      exact ih s' t (hstep s s' hs hn) h
    | fault r => rw [hn] at h; cases h
    | refused r => rw [hn] at h; cases h

end Sys2Proof.Machine
end

