-- ==== Sys2Proof/Laws/Effect.lean ====
section
/-! SUPPORT. The effect of each instruction as a relation between states, and the one inversion lemma of `exec`:
if it answers a next state, then it raised a fault or had this effect. -/

namespace Sys2Proof.Machine

/-- Stage 6 (R64) of each instruction, with the checks of stages 4 and 5 that let it run. -/
def Effect (i : Instr) (s t : State) : Prop :=
  match i with
  | .call addr => s.sp < s.cfg.len ∧ t = (s.push (wrap32 (s.ip + 2))).jump addr.toInt
  | .ret => s.cfg.stackBase < s.sp ∧ s.sp ≤ s.cfg.len ∧ t = s.dropTop.jump (Memory.read s.mem (s.sp - 1)).toInt
  | .cmp r1 c => ∃ q : Reg, r1.toInt = q.num ∧ t = (s.setFlag (compareFlag (s.regs.read q) c)).advance 3
  | .jne offset =>
    (s.flag = false ∧ t = s.jump (s.ip + offset.toInt)) ∨ (s.flag = true ∧ t = s.advance 2)
  | .push r => ∃ q : Reg, r.toInt = q.num ∧ s.sp < s.cfg.len ∧ t = (s.push (s.regs.read q)).advance 2
  | .pop r =>
    ∃ q : Reg, r.toInt = q.num ∧ s.cfg.stackBase < s.sp ∧ s.sp ≤ s.cfg.len ∧
      t = (s.dropTop.writeReg q (Memory.read s.mem (s.sp - 1))).advance 2
  | .set r c => ∃ q : Reg, r.toInt = q.num ∧ t = (s.writeReg q c).advance 3
  | .copy rSrc rDst =>
    ∃ a d : Reg, rSrc.toInt = a.num ∧ rDst.toInt = d.num ∧ t = (s.writeReg d (s.regs.read a)).advance 3
  | .add rDst rSrc =>
    ∃ d a : Reg, rDst.toInt = d.num ∧ rSrc.toInt = a.num ∧
      t = (s.writeReg d (wrap32 ((s.regs.read d).toInt + (s.regs.read a).toInt))).advance 3
  | .dec r => ∃ q : Reg, r.toInt = q.num ∧ t = (s.writeReg q (wrap32 ((s.regs.read q).toInt - 1))).advance 2
  | .print r => ∃ q : Reg, r.toInt = q.num ∧ t = (s.emit (s.regs.read q)).advance 2
  | .exit => t = s.halt

/-- The faults of stages 4 and 5 (R62, R63), without saying which instruction raises which. -/
def CheckFault (s t : State) : Prop :=
  (∃ w : Word, (w.toInt < 0 ∨ 3 ≤ w.toInt) ∧ t = s.raise .registerIndex w.toInt s.ip) ∨
  (s.cfg.len ≤ s.sp ∧ t = s.raise .stackOverflow s.sp s.ip) ∨
  (s.sp ≤ s.cfg.stackBase ∧ t = s.raise .stackUnderflow s.sp s.ip)

/-- All that an instruction can do. -/
theorem exec_cases {i : Instr} {s t : State} (h : exec i s = .next t) : CheckFault s t ∨ Effect i s t := by
  cases i with
  | call addr =>
    rcases execCall_cases h with e | e
    · exact .inr e
    · exact .inl (.inr (.inl e))
  | ret =>
    rcases execRet_cases h with e | e
    · exact .inr e
    · exact .inl (.inr (.inr e))
  | cmp r1 c =>
    rcases execCmp_cases h with e | e
    · exact .inr e
    · exact .inl (.inl ⟨r1, e⟩)
  | jne offset => exact .inr (execJne_cases h)
  | push r =>
    rcases execPush_cases h with e | e | ⟨_, _, e⟩
    · exact .inr e
    · exact .inl (.inl ⟨r, e⟩)
    · exact .inl (.inr (.inl e))
  | pop r =>
    rcases execPop_cases h with e | e | ⟨_, _, e⟩
    · exact .inr e
    · exact .inl (.inl ⟨r, e⟩)
    · exact .inl (.inr (.inr e))
  | set r c =>
    rcases execSet_cases h with e | e
    · exact .inr e
    · exact .inl (.inl ⟨r, e⟩)
  | copy rSrc rDst =>
    rcases execCopy_cases h with e | e | ⟨_, _, e⟩
    · exact .inr e
    · exact .inl (.inl ⟨rSrc, e⟩)
    · exact .inl (.inl ⟨rDst, e⟩)
  | add rDst rSrc =>
    rcases execAdd_cases h with e | e | ⟨_, _, e⟩
    · exact .inr e
    · exact .inl (.inl ⟨rDst, e⟩)
    · exact .inl (.inl ⟨rSrc, e⟩)
  | dec r =>
    rcases execDec_cases h with e | e
    · exact .inr e
    · exact .inl (.inl ⟨r, e⟩)
  | print r =>
    rcases execPrint_cases h with e | e
    · exact .inr e
    · exact .inl (.inl ⟨r, e⟩)
  | exit => exact .inr (execExit_cases h)

/-- A fault of stages 4 and 5 writes the status and the record only (R104). -/
theorem CheckFault.eq_raise {s t : State} (h : CheckFault s t) :
    ∃ (f : FaultCode) (a : Int), f ≠ .none ∧ t = s.raise f a s.ip := by
  rcases h with ⟨w, _, e⟩ | ⟨_, e⟩ | ⟨_, e⟩
  · exact ⟨.registerIndex, _, nofun, e⟩
  · exact ⟨.stackOverflow, _, nofun, e⟩
  · exact ⟨.stackUnderflow, _, nofun, e⟩

/-- A fault of stages 1 to 3 writes the status and the record only (R104). -/
theorem State.raiseFetch_eq_raise (s : State) (e : DecodeError) :
    ∃ (f : FaultCode) (a : Int), f ≠ .none ∧ s.raiseFetch e = s.raise f a s.ip := by
  cases e with
  | missing j => exact ⟨.fetchOutOfRange, _, nofun, rfl⟩
  | unknownTag w => exact ⟨.decodeFault, _, nofun, rfl⟩

/-- All that a step of a running machine can do: a fault, or one instruction's effect. -/
theorem step_running_cases {s t : State} (hs : s.status = .running) (h : step s = .next t) :
    (∃ (f : FaultCode) (a : Int), f ≠ .none ∧ t = s.raise f a s.ip) ∨
    (∃ i : Instr, s.fetch = .ok i ∧ exec i s = .next t ∧ Effect i s t) := by
  rcases step_cases h with ⟨hn, _⟩ | ⟨_, e, _, rfl⟩ | ⟨_, i, hi, he⟩
  · exact absurd hs hn
  · exact .inl (s.raiseFetch_eq_raise e)
  · rcases exec_cases he with hc | hc
    · exact .inl hc.eq_raise
    · exact .inr ⟨i, hi, he, hc⟩

end Sys2Proof.Machine
end

