-- ==== Sys2Proof/Laws/HostPort.lean ====
section
/-! SUPPORT. The block under reset: one lemma per field per move of the host, and what reset release gives. -/

namespace Sys2Proof.Machine

@[simp] theorem State.assertReset_mem (s : State) : s.assertReset.mem = s.mem := rfl
@[simp] theorem State.assertReset_tags (s : State) : s.assertReset.tags = s.cfg.tags := rfl
@[simp] theorem UnderReset.store_mem (u : UnderReset) (a : Nat) (w : Word) :
    (u.store a w).mem = Memory.write u.mem a w := rfl
@[simp] theorem UnderReset.store_tags (u : UnderReset) (a : Nat) (w : Word) : (u.store a w).tags = u.tags := rfl
@[simp] theorem UnderReset.load_mem (u : UnderReset) (a : Nat) (ws : List Word) :
    (u.load a ws).mem = Memory.load u.mem a ws := rfl
@[simp] theorem UnderReset.load_tags (u : UnderReset) (a : Nat) (ws : List Word) : (u.load a ws).tags = u.tags := rfl

/-- All that reset release gives: the engine's own reset state, over the storage as it stands (R116). -/
theorem UnderReset.release_eq (u : UnderReset) (stackBase len : Nat) :
    u.release stackBase len = State.release ⟨stackBase, len, u.tags⟩ u.mem := rfl

@[simp] theorem UnderReset.release_mem (u : UnderReset) (stackBase len : Nat) : (u.release stackBase len).mem = u.mem := rfl
@[simp] theorem UnderReset.release_cfg (u : UnderReset) (stackBase len : Nat) :
    (u.release stackBase len).cfg = ⟨stackBase, len, u.tags⟩ := rfl
@[simp] theorem State.hostReset_mem (s : State) (stackBase len : Nat) : (s.hostReset stackBase len).mem = s.mem := rfl
@[simp] theorem State.hostReset_cfg (s : State) (stackBase len : Nat) :
    (s.hostReset stackBase len).cfg = ⟨stackBase, len, s.cfg.tags⟩ := rfl

/-- The host's stores under reset keep the canonical form. -/
theorem UnderReset.store_wf (u : UnderReset) (a : Nat) (w : Word) (h : Memory.wf u.mem = true) :
    Memory.wf (u.store a w).mem = true := Memory.wf_write _ _ _ h

/-- The host's loads under reset keep the canonical form. -/
theorem UnderReset.load_wf (u : UnderReset) (a : Nat) (ws : List Word) (h : Memory.wf u.mem = true) :
    Memory.wf (u.load a ws).mem = true := Memory.wf_load _ _ _ h

end Sys2Proof.Machine
end

