-- ==== Sys2Proof/Laws/PerInstr.lean ====
section
/-! SUPPORT. Per-instruction facts about instructions as syntax, one lemma per constructor. -/

namespace Sys2Proof.Laws

/-- The encoding of an instruction is its tag followed by its operand words: 1 plus the operand count of its row of
R52, at most three words (R45). -/
def EncodeLength.Statement (i : Instr) : Prop :=
  ∀ T : Tags, (encode T i)[0]? = some (T.tagOf i.opcode) ∧ (encode T i).tail = i.operands ∧
    (encode T i).length = 1 + i.opcode.kinds.length ∧ i.size = (encode T i).length ∧ i.size ≤ 3

theorem EncodeLength.call (addr : Word) : EncodeLength.Statement (.call addr) :=
  fun _ => ⟨rfl, rfl, rfl, rfl, by simp [Instr.size, Instr.operands]⟩

theorem EncodeLength.ret : EncodeLength.Statement .ret :=
  fun _ => ⟨rfl, rfl, rfl, rfl, by simp [Instr.size, Instr.operands]⟩

theorem EncodeLength.cmp (r1 c : Word) : EncodeLength.Statement (.cmp r1 c) :=
  fun _ => ⟨rfl, rfl, rfl, rfl, by simp [Instr.size, Instr.operands]⟩

theorem EncodeLength.jne (offset : Word) : EncodeLength.Statement (.jne offset) :=
  fun _ => ⟨rfl, rfl, rfl, rfl, by simp [Instr.size, Instr.operands]⟩

theorem EncodeLength.push (r : Word) : EncodeLength.Statement (.push r) :=
  fun _ => ⟨rfl, rfl, rfl, rfl, by simp [Instr.size, Instr.operands]⟩

theorem EncodeLength.pop (r : Word) : EncodeLength.Statement (.pop r) :=
  fun _ => ⟨rfl, rfl, rfl, rfl, by simp [Instr.size, Instr.operands]⟩

theorem EncodeLength.set (r c : Word) : EncodeLength.Statement (.set r c) :=
  fun _ => ⟨rfl, rfl, rfl, rfl, by simp [Instr.size, Instr.operands]⟩

theorem EncodeLength.copy (rSrc rDst : Word) : EncodeLength.Statement (.copy rSrc rDst) :=
  fun _ => ⟨rfl, rfl, rfl, rfl, by simp [Instr.size, Instr.operands]⟩

theorem EncodeLength.add (rDst rSrc : Word) : EncodeLength.Statement (.add rDst rSrc) :=
  fun _ => ⟨rfl, rfl, rfl, rfl, by simp [Instr.size, Instr.operands]⟩

theorem EncodeLength.dec (r : Word) : EncodeLength.Statement (.dec r) :=
  fun _ => ⟨rfl, rfl, rfl, rfl, by simp [Instr.size, Instr.operands]⟩

theorem EncodeLength.print (r : Word) : EncodeLength.Statement (.print r) :=
  fun _ => ⟨rfl, rfl, rfl, rfl, by simp [Instr.size, Instr.operands]⟩

theorem EncodeLength.exit : EncodeLength.Statement .exit :=
  fun _ => ⟨rfl, rfl, rfl, rfl, by simp [Instr.size, Instr.operands]⟩

end Sys2Proof.Laws
end

