-- ==== Sys2Proof/Tests/Slice0.lean ====
section
/-! SUPPORT. Tests of the model's own (expected values from `spec/95_test_vectors.md` or by hand from the rules), and a
witness for the hypotheses of every statement of `Sys2Proof/Certificates/Slice0/Obligations.lean`. -/

namespace Sys2Proof.Tests

open Sys2Proof.Machine

/-- The next state of an outcome, if it has one. -/
def nextOf : Result → Option State
  | .next s => some s
  | .fault _ => none
  | .refused _ => none

/-- The fault of an outcome, if it has one. -/
def faultOf : Result → Option Fault
  | .next _ => none
  | .fault r => some r
  | .refused _ => none

theorem eq_next_of_nextOf {o : Result} {s : State} (h : nextOf o = some s) : o = .next s := by
  cases o <;> simp_all [nextOf]

/-- Words at `ip` in a memory of 12 words whose stack region starts at 8; `x = [5, -2, 7]`. -/
def mk (ip : Nat) (ws : List Word) (sp : Nat) : State :=
  { State.release ⟨8, 12, Tags.default⟩ (Memory.load [] ip ws) with ip := ip, sp := sp, regs := ⟨5, -2, 7⟩ }

/-- A word on the stack. -/
def withSlot (s : State) (a : Nat) (w : Word) : State := { s with mem := Memory.write s.mem a w }

/-- The next state of a step, or the state itself where there is none. -/
def go (s : State) : State := (nextOf (step s)).getD s

theorem holdsAtIp_of_check {s : State} {i : Instr} (h0 : 0 ≤ s.ip) (h1 : s.ip + i.size ≤ s.cfg.len)
    (h : ∀ j, j < i.size → (encode s.cfg.tags i)[j]? = some (Memory.read s.mem (s.ip.toNat + j))) : s.holdsAtIp i := by
  refine ⟨h0, h1, fun j w hw => ?_⟩
  have hj := (List.getElem?_eq_some_iff.1 hw).1
  have hl : (encode s.cfg.tags i).length = i.size := by
    simp [encode, Instr.size]
    omega
  have := h j (hl ▸ hj)
  rw [hw] at this
  exact (Option.some.inj this).symm

/-! ## Decoding: words written out from R51 and R52 -/

theorem test_decode_call : decode Tags.default [0x00000000, 0xFFFFFFFF] = .ok (.call (-1), []) := by decide
theorem test_decode_ret : decode Tags.default [0x00000001, 0x00000000] = .ok (.ret, [0]) := by decide
theorem test_decode_cmp : decode Tags.default [0x00000002, 0x00000001, 0xFFFFFFFF] = .ok (.cmp 1 (-1), []) := by decide
theorem test_decode_jne : decode Tags.default [0x00000003, 0xFFFFFFF8] = .ok (.jne (-8), []) := by decide
theorem test_decode_push : decode Tags.default [0x00000004, 0x00000001] = .ok (.push 1, []) := by decide
theorem test_decode_pop : decode Tags.default [0x00000005, 0x00000002] = .ok (.pop 2, []) := by decide
theorem test_decode_set : decode Tags.default [0x00000006, 0x00000001, 0x80000000] = .ok (.set 1 (-2147483648), []) := by decide
theorem test_decode_copy : decode Tags.default [0x00000007, 0x00000000, 0x00000002] = .ok (.copy 0 2, []) := by decide
theorem test_decode_add : decode Tags.default [0x00000008, 0x00000001, 0x00000002] = .ok (.add 1 2, []) := by decide
theorem test_decode_dec : decode Tags.default [0x00000009, 0x00000000] = .ok (.dec 0, []) := by decide
theorem test_decode_print : decode Tags.default [0x0000000A, 0x00000001] = .ok (.print 1, []) := by decide
theorem test_decode_exit : decode Tags.default [0x0000000B] = .ok (.exit, []) := by decide

theorem test_decode_rejects_by_name :
    decode Tags.default [] = .error (.missing 0) ∧ decode Tags.default [6] = .error (.missing 1) ∧
    decode Tags.default [6, 7] = .error (.missing 2) ∧ decode Tags.default [99] = .error (.unknownTag 99) ∧
    decode Tags.default [12] = .error (.unknownTag 12) ∧ decode Tags.default [-1] = .error (.unknownTag (-1)) := by
  decide

/-- R81: COPY names the source first, ADD the destination first; encoding keeps the order. -/
theorem test_encode_order :
    encode Tags.default (.copy 0 2) = [7, 0, 2] ∧ encode Tags.default (.add 2 1) = [8, 2, 1] := by decide

theorem test_decodeTableWord :
    decodeTableWord 32 0 = some (.call 0) ∧ decodeTableWord 32 1 = some .ret ∧
    decodeTableWord 32 10 = some (.print 0) ∧ decodeTableWord 32 11 = some .exit ∧ decodeTableWord 32 99 = none ∧
    decodeTableWord 96 0x000000050000000000000006 = some (.set 0 5) := by decide

/-! ## Well-formedness: an ill-formed term for each check -/

theorem test_wf_cmp : (Instr.cmp 3 0).wellFormed = false := by decide
theorem test_wf_push : (Instr.push (-1)).wellFormed = false := by decide
theorem test_wf_pop : (Instr.pop 3).wellFormed = false := by decide
theorem test_wf_set : (Instr.set 0x80000000 0).wellFormed = false := by decide
theorem test_wf_copy :
    (Instr.copy 3 0).wellFormed = false ∧ (Instr.copy 0 3).wellFormed = false ∧ (Instr.copy 2 0).wellFormed = true := by
  decide
theorem test_wf_add :
    (Instr.add 3 0).wellFormed = false ∧ (Instr.add 0 3).wellFormed = false ∧ (Instr.add 0 2).wellFormed = true := by
  decide
theorem test_wf_dec : (Instr.dec 3).wellFormed = false := by decide
theorem test_wf_print : (Instr.print (-2147483648)).wellFormed = false := by decide

/-! ## One step of each instruction -/

/-- R67, last slot of the stack. -/
theorem test_call :
    let t := go (mk 3 [0, 6] 11)
    t.ip = 6 ∧ t.sp = 12 ∧ t.mem = [(4, 6), (11, 5)] ∧ t.status = .running := by decide

/-- V-C6: a wild target is accepted. -/
theorem test_call_wild : (go (mk 0 [0, 2147483647] 8)).ip = 2147483647 := by decide

/-- R68: a negative word becomes `ip`, and stays in its slot (V-C7). -/
theorem test_ret :
    let t := go (withSlot (mk 0 [1] 9) 8 (-7))
    t.ip = -7 ∧ t.sp = 8 ∧ Memory.read t.mem 8 = -7 := by decide

/-- R69 with V-B4's negative constant; the flag is cleared by an unequal comparison. -/
theorem test_cmp :
    (go (mk 0 [2, 1, -2] 8)).flag = true ∧ (go { mk 0 [2, 0, 0] 8 with flag := true }).flag = false ∧
    (go (mk 0 [2, 1, -2] 8)).ip = 3 := by decide

/-- R70 (d), V-B1, V-B3, V-B6. -/
theorem test_jne :
    (go (mk 0 [3, -5] 8)).ip = -5 ∧ (go { mk 0 [3, -5] 8 with flag := true }).ip = 2 ∧
    (go (mk 2 [3, 2147483647] 8)).ip = 2147483649 := by decide

/-- R73. -/
theorem test_push :
    let t := go (mk 0 [4, 1] 8)
    Memory.read t.mem 8 = -2 ∧ t.sp = 9 ∧ t.ip = 2 ∧ t.regs = ⟨5, -2, 7⟩ := by decide

/-- R74, V-K4: the popped word stays. -/
theorem test_pop :
    let t := go (withSlot (mk 0 [5, 1] 9) 8 4)
    t.regs = ⟨5, 4, 7⟩ ∧ t.sp = 8 ∧ t.ip = 2 ∧ Memory.read t.mem 8 = 4 := by decide

/-- R77 (b): destination first. -/
theorem test_set : (go (mk 0 [6, 1, 0] 8)).regs = ⟨5, 0, 7⟩ := by decide

/-- R78: source first. -/
theorem test_copy : (go (mk 0 [7, 1, 2] 8)).regs = ⟨5, -2, -2⟩ ∧ (go (mk 0 [7, 1, 2] 8)).ip = 3 := by decide

/-- R79: destination first; V-R1's wrap-around and doubling. -/
theorem test_add :
    (go (mk 0 [8, 1, 0] 8)).regs = ⟨5, 3, 7⟩ ∧
    (go { mk 0 [8, 0, 1] 8 with regs := ⟨2147483647, 1, 0⟩ }).regs = ⟨-2147483648, 1, 0⟩ ∧
    (go { mk 0 [8, 0, 0] 8 with regs := ⟨2147483647, 1, 0⟩ }).regs = ⟨-2, 1, 0⟩ := by decide

/-- R80 (a), (b); no flag. -/
theorem test_dec :
    (go { mk 0 [9, 0] 8 with regs := ⟨-2147483648, 0, 0⟩ }).regs = ⟨2147483647, 0, 0⟩ ∧
    (go { mk 0 [9, 2] 8 with regs := ⟨0, 0, 1⟩ }).flag = false ∧
    (go { mk 0 [9, 2] 8 with regs := ⟨0, 0, 0⟩ }).regs.x2 = -1 := by decide

/-- R84: order of the output. -/
theorem test_print : (go { mk 0 [10, 1] 8 with out := [3] }).out = [3, -2] := by decide

/-- R86 (b), V-P1: EXIT in the last word; `ip` stays. -/
theorem test_exit :
    let t := go (State.boot 1 1 Tags.default [11])
    t.status = .exited ∧ t.ip = 0 ∧ t.sp = 1 ∧ go t = t := by decide

/-! ## Faults (V-C2, V-C3, V-K5, V-K6, V-R6, V-R8, V-F1, V-F3 to V-F8) -/

theorem test_fault_overflow : (go (State.boot 2 2 Tags.default [0, 0])).fault = ⟨.stackOverflow, 2, 0⟩ := by decide
theorem test_fault_underflow : (go (State.boot 1 2 Tags.default [1, 0])).fault = ⟨.stackUnderflow, 1, 0⟩ := by decide
theorem test_fault_index_before_stack :
    (go (State.boot 2 2 Tags.default [4, 5])).fault = ⟨.registerIndex, 5, 0⟩ ∧
    (go (State.boot 2 3 Tags.default [5, 3, 0])).fault = ⟨.registerIndex, 3, 0⟩ := by decide
theorem test_fault_index :
    (go (State.boot 4 4 Tags.default [6, -1, 1, 11])).fault = ⟨.registerIndex, -1, 0⟩ ∧
    (go (State.boot 4 4 Tags.default [7, 5, 7, 11])).fault = ⟨.registerIndex, 5, 0⟩ := by decide
theorem test_fault_decode :
    (go (State.boot 1 1 Tags.default [99])).fault = ⟨.decodeFault, 99, 0⟩ ∧
    (go (State.boot 1 1 Tags.default [-1])).fault = ⟨.decodeFault, -1, 0⟩ := by decide
theorem test_fault_fetch :
    (go (State.boot 0 0 Tags.default [])).fault = ⟨.fetchOutOfRange, 0, 0⟩ ∧
    (go (State.boot 1 1 Tags.default [6])).fault = ⟨.fetchOutOfRange, 1, 0⟩ ∧
    (go (State.boot 2 2 Tags.default [6, 7])).fault = ⟨.fetchOutOfRange, 2, 0⟩ := by decide
/-- V-F9: a faulted state takes no step. -/
theorem test_fault_is_terminal :
    let t := go (State.boot 1 1 Tags.default [99])
    t.status = .faulted ∧ t.ip = 0 ∧ go t = t := by decide

/-- V-X2: a pushed word is executed. -/
theorem test_fetch_from_stack :
    (go { mk 9 [] 10 with mem := Memory.write [] 9 11 }).status = .exited := by decide

/-! ## Memory, ports, host -/

theorem test_memory_canonical :
    Memory.write (Memory.write (Memory.write [] 5 1) 2 7) 5 0 = [(2, 7)] ∧ Memory.wf [(2, 7), (5, 1)] = true ∧
    Memory.wf [(5, 1), (2, 7)] = false ∧ Memory.wf [(2, 0)] = false := by decide

/-- R25, R98: the codes at the ports. -/
theorem test_port_codes :
    [Status.running, .exited, .faulted].map Status.port = [0, 1, 2] ∧
    [FaultCode.none, .decodeFault, .stackUnderflow, .stackOverflow, .registerIndex, .fetchOutOfRange].map
      FaultCode.port = [0, 1, 2, 3, 4, 5] ∧
    (payloadPort 2147483649).toInt = 2147483649 ∧ (payloadPort (-5)).toInt = -5 := by decide

/-- R91: the transactions of CALL, POP and PRINT, and of a step that faults at its second operand. -/
theorem test_transactions :
    (mk 3 [0, 6] 11).transactions = [.read 3 0, .read 4 6, .write 11 5] ∧
    (withSlot (mk 0 [5, 1] 9) 8 4).transactions = [.read 0 5, .read 1 1, .read 8 4] ∧
    (mk 0 [10, 1] 8).transactions = [.read 0 10, .read 1 1, .output (-2)] ∧
    (mk 10 [6, 0] 8).transactions = [.read 10 6, .read 11 0] := by decide

/-- R95, R114, R117: after the end the host may store; reset keeps only the memory. -/
theorem test_host :
    let t := go (State.boot 1 3 Tags.default [11, 4, 5])
    (mk 0 [] 8).hostStore 0 1 = none ∧ (t.hostStore 2 9).map State.mem = some [(0, 11), (1, 4), (2, 9)] ∧
    t.hostStore 3 9 = none ∧ t.hostReset 1 3 = State.boot 1 3 Tags.default [11, 4, 5] := by decide

/-- R90, R116, D19: what the host put at an index stays there while `LEN` does not reach it. -/
theorem test_reset_keeps_storage :
    let u := (State.boot 0 0 Tags.default [11]).hostReset 0 1
    (State.boot 0 0 Tags.default [11]).memRead 0 = none ∧ u.memRead 0 = some 11 ∧ (go u).status = .exited := by decide

/-- R95, R114, R116: a run is aborted, a larger memory is loaded while reset is asserted, and the fresh execution runs
the loaded program. -/
theorem test_host_loads_under_reset :
    let t := ((State.boot 1 1 Tags.default [99]).assertReset.load 0 [3, 2, 11]).store 3 7 |>.release 3 4
    t = State.boot 3 4 Tags.default [3, 2, 11, 7] ∧ t.sp = 3 ∧ t.status = .running ∧ (go t).ip = 2 ∧
    (go (go t)).status = .exited := by decide

/-- R93, V-P4. -/
theorem test_render : renderOut [-2147483648, 0, 5] = "-2147483648\n0\n5\n" := by rfl

/-- The first step after reset runs the word `withFetchWord` stores, and nothing but the memory is put in place. -/
theorem test_withFetchWord :
    (go (State.reset.withFetchWord 32 11)).status = .exited ∧ (go (State.reset.withFetchWord 32 10)).out = [0] ∧
    (go (State.reset.withFetchWord 32 5)).fault = ⟨.stackUnderflow, 2 ^ 30, 0⟩ ∧
    State.reset.withFetchWord 32 11 = { State.reset with mem := [(0, 11)] } := by decide

/-- V-X5: memory of zeros is `CALL 0`. -/
theorem test_reset_step :
    let t := go State.reset
    t.ip = 0 ∧ t.sp = 2 ^ 30 + 1 ∧ t.mem = [(2 ^ 30, 2)] ∧ t.status = .running := by decide

/-! ## Witnesses: states and operands that meet the hypotheses of each statement -/

theorem witness_DecodeReadsBackEncode : Tags.default.admissible := by decide

theorem witness_EncodeReadsBackDecode : decode Tags.default [6, 0, 5, 9] = .ok (.set 0 5, [9]) := by decide

theorem witness_LengthFollowsFromTag :
    Tags.default.opcodeOf 6 = some .set ∧ decode Tags.default [6, 0, 5, 9] = .ok (.set 0 5, [9]) := by decide

theorem witness_StepRunsFetchedInstruction :
    (mk 0 [6, 0, 5] 8).status = .running ∧ (mk 0 [6, 0, 5] 8).fetch = .ok (.set 0 5) := by decide

/-- The last three words of the memory. -/
theorem witness_StepRunsInstructionInMemory :
    (mk 9 [6, 0, 5] 8).status = .running ∧ (mk 9 [6, 0, 5] 8).cfg.tags.admissible ∧
    (mk 9 [6, 0, 5] 8).holdsAtIp (.set 0 5) :=
  ⟨by decide, by decide, holdsAtIp_of_check (by decide) (by decide) (by decide)⟩

/-- Both sides of both ends of `[0, LEN)`. -/
theorem witness_TagFetchIsRangeChecked :
    (mk 12 [] 8).status = .running ∧ (mk 12 [] 8).cfg.len ≤ (mk 12 [] 8).ip ∧
    { mk 0 [] 8 with ip := -1 }.ip < 0 ∧ 0 ≤ (mk 0 [] 8).ip ∧ (mk 11 [] 8).ip < (mk 11 [] 8).cfg.len := by decide

theorem witness_UnknownTagRaisesDecodeFault :
    (mk 0 [12] 8).status = .running ∧ 0 ≤ (mk 0 [12] 8).ip ∧ (mk 11 [99] 8).ip < (mk 11 [99] 8).cfg.len ∧
    (∀ m : Opcode, (mk 0 [12] 8).cfg.tags.tagOf m ≠ Memory.read (mk 0 [12] 8).mem 0) ∧
    (mk 11 [99] 8).cfg.tags.admissible ∧ Memory.read (mk 11 [99] 8).mem 11 = 99 :=
  ⟨by decide, by decide, by decide, fun m => by cases m <;> decide, by decide, by decide⟩

theorem witness_RegisterIndexCheckedInOperandOrder :
    ((Instr.copy 2 3).opcode.kinds.zip (Instr.copy 2 3).operands).find?
      (fun p => decide (p.1 = .registerIndex ∧ badIndex p.2)) = some (.registerIndex, 3) ∧
    ((Instr.push 0).opcode.kinds.zip (Instr.push 0).operands).find?
      (fun p => decide (p.1 = .registerIndex ∧ badIndex p.2)) = none ∧
    (nextOf (exec (.push 0) (mk 0 [] 8))).isSome = true := by decide

/-- Full and one short of full, empty and one above empty. -/
theorem witness_StackBoundsChecked :
    (Instr.call 0).wellFormed = true ∧ (Instr.push 2).wellFormed = true ∧ (mk 0 [] 12).cfg.len ≤ (mk 0 [] 12).sp ∧
    Instr.ret.wellFormed = true ∧ (Instr.pop 2).wellFormed = true ∧ (mk 0 [] 8).sp ≤ (mk 0 [] 8).cfg.stackBase ∧
    (mk 0 [] 12).cfg.lpSize ∧ (mk 0 [] 12).stackOk ∧ (mk 0 [] 8).stackOk := by decide

/-- One state for each fault of the list, and one for none. -/
theorem witness_StepRaisesFirstFaultOfList :
    (mk 12 [] 8).firstFault = some ⟨.fetchOutOfRange, 12, 12⟩ ∧ (mk 0 [99] 8).firstFault = some ⟨.decodeFault, 99, 0⟩ ∧
    (mk 11 [6] 8).firstFault = some ⟨.fetchOutOfRange, 12, 11⟩ ∧
    (mk 10 [6, 7] 8).firstFault = some ⟨.fetchOutOfRange, 12, 10⟩ ∧
    (mk 0 [7, 3, 3] 8).firstFault = some ⟨.registerIndex, 3, 0⟩ ∧
    (mk 0 [7, 2, -1] 8).firstFault = some ⟨.registerIndex, -1, 0⟩ ∧
    (mk 0 [4, 0] 12).firstFault = some ⟨.stackOverflow, 12, 0⟩ ∧ (mk 0 [1] 8).firstFault = some ⟨.stackUnderflow, 8, 0⟩ ∧
    (mk 0 [4, 0] 11).firstFault = none ∧ (mk 0 [4, 0] 11).stackOk ∧ (mk 0 [4, 0] 11).status = .running := by decide

/-- For every opcode, its tag as the last word and as the last but one of the memory, and `ip` outside at either end:
the hypotheses of `fetchFaultsOf`, which every statement about an instruction contains. -/
theorem witness_fetchFaultsOf :
    (∀ m ∈ Opcode.all, ∀ j ∈ [1, 2],
      let s := mk (12 - j) [Tags.default.tagOf m] 8
      s.status = .running ∧ s.cfg.tags.admissible ∧ 0 ≤ s.ip ∧ s.ip + (j : Nat) = s.cfg.len ∧
      Memory.read s.mem s.ip.toNat = s.cfg.tags.tagOf m) ∧
    (mk 12 [] 8).cfg.len ≤ (mk 12 [] 8).ip ∧ { mk 0 [] 8 with ip := -1 }.ip < 0 ∧
    1 < (Instr.call 0).size ∧ 1 < (Instr.jne 0).size ∧ 2 < (Instr.cmp 0 0).size := by decide

/-- The last slot; the full stack. -/
theorem witness_CallPushesReturnAddressAndJumps :
    (mk 10 [0, 0] 11).sp < (mk 10 [0, 0] 11).cfg.len ∧ 0 ≤ (mk 10 [0, 0] 11).ip ∧
    (mk 10 [0, 0] 11).ip + 1 < (mk 10 [0, 0] 11).cfg.len ∧ (mk 10 [0, 0] 11).cfg.len ≤ Config.maxLen ∧
    (mk 0 [] 12).cfg.len ≤ (mk 0 [] 12).sp := by decide

/-- One word on the stack, the full stack, the empty stack. -/
theorem witness_RetPopsAndJumps :
    (mk 0 [1] 9).cfg.stackBase < (mk 0 [1] 9).sp ∧ (mk 0 [1] 9).sp ≤ (mk 0 [1] 9).cfg.len ∧
    (mk 0 [1] 12).cfg.stackBase < (mk 0 [1] 12).sp ∧ (mk 0 [1] 12).sp ≤ (mk 0 [1] 12).cfg.len ∧
    (mk 0 [1] 8).sp ≤ (mk 0 [1] 8).cfg.stackBase := by decide

/-- Register operands at both ends of `[0, 3)` and just outside it, for CMP, SET, COPY, ADD, DEC and PRINT. -/
theorem witness_register_operands :
    (0 : Word).toInt = Reg.r0.num ∧ (1 : Word).toInt = Reg.r1.num ∧ (2 : Word).toInt = Reg.r2.num ∧
    badIndex 3 ∧ badIndex (-1) ∧ ¬ badIndex 0 ∧ ¬ badIndex 2 := by decide

theorem witness_CmpAssignsFlag : (2 : Word).toInt = Reg.r2.num ∧ badIndex 3 ∧ badIndex (-1) := by decide
theorem witness_JneJumpsWhenFlagFalse :
    (mk 0 [3, 0] 8).flag = false ∧ { mk 0 [3, 0] 8 with flag := true }.flag = true := by decide
theorem witness_PushStoresRegister :
    (2 : Word).toInt = Reg.r2.num ∧ (mk 0 [4, 2] 11).sp < (mk 0 [4, 2] 11).cfg.len ∧ badIndex 3 ∧
    (mk 0 [4, 2] 12).cfg.len ≤ (mk 0 [4, 2] 12).sp := by decide
theorem witness_PopLoadsRegister :
    (2 : Word).toInt = Reg.r2.num ∧ (mk 0 [5, 2] 9).cfg.stackBase < (mk 0 [5, 2] 9).sp ∧
    (mk 0 [5, 2] 9).sp ≤ (mk 0 [5, 2] 9).cfg.len ∧ badIndex 3 ∧
    (mk 0 [5, 2] 8).sp ≤ (mk 0 [5, 2] 8).cfg.stackBase := by decide
theorem witness_SetWritesConstant : (0 : Word).toInt = Reg.r0.num ∧ badIndex 3 := by decide
theorem witness_CopyMovesFirstIntoSecond :
    (0 : Word).toInt = Reg.r0.num ∧ (2 : Word).toInt = Reg.r2.num ∧ badIndex 3 ∧ ¬ badIndex 2 := by decide
theorem witness_AddAddsSecondIntoFirst :
    (2 : Word).toInt = Reg.r2.num ∧ (0 : Word).toInt = Reg.r0.num ∧ badIndex (-1) ∧ ¬ badIndex 0 := by decide
theorem witness_DecSubtractsOne : (1 : Word).toInt = Reg.r1.num ∧ badIndex 3 := by decide
theorem witness_PrintAppendsRegister : (2 : Word).toInt = Reg.r2.num ∧ badIndex (-1) := by decide

/-- The run clauses of EXIT, fault entry and precise faults: a terminal state does answer a step request. -/
theorem witness_ExitHaltsInPlace :
    nextOf (exec .exit (mk 7 [11] 8)) = some (mk 7 [11] 8).halt ∧ runsTo 1 (mk 7 [11] 8).halt (mk 7 [11] 8).halt :=
  ⟨by decide, run_succ_of_next (eq_next_of_nextOf (by decide))⟩

theorem witness_FaultEntryWritesOnlyStatusAndRecord :
    runsTo 1 ((mk 0 [99] 8).raise .decodeFault 99 0) ((mk 0 [99] 8).raise .decodeFault 99 0) :=
  run_succ_of_next (eq_next_of_nextOf (by decide))

theorem witness_FaultsArePrecise :
    (mk 0 [99] 8).status = .running ∧ step (mk 0 [99] 8) = .next (go (mk 0 [99] 8)) ∧
    (go (mk 0 [99] 8)).status = .faulted ∧ runsTo 1 (go (mk 0 [99] 8)) (go (mk 0 [99] 8)) :=
  ⟨by decide, eq_next_of_nextOf (by decide), by decide, run_succ_of_next (eq_next_of_nextOf (by decide))⟩

theorem witness_TerminalStatesDoNotChange :
    (go (mk 0 [11] 8)).status ≠ .running ∧ (go (mk 0 [99] 8)).status ≠ .running := by decide

theorem witness_StepAlwaysAnswersNextState : (mk 0 [1] 8).stackOk ∧ (mk 0 [1] 12).stackOk := by decide

/-- `STACK_BASE` one above `LEN`. -/
theorem witness_BrokenPremiseStaysInRange :
    (State.boot 3 2 Tags.default [1]).stackOk ∧
    (State.boot 3 2 Tags.default [1]).cfg.len < (State.boot 3 2 Tags.default [1]).cfg.stackBase ∧
    (Instr.push 0).wellFormed = true ∧ (Instr.pop 0).wellFormed = true := by decide

theorem witness_PopBeyondMemoryStops :
    (mk 0 [1] 13).cfg.stackBase < (mk 0 [1] 13).sp ∧ (mk 0 [1] 13).cfg.len < (mk 0 [1] 13).sp ∧ ¬ badIndex 2 ∧
    faultOf (step (mk 0 [1] 13)) = some (.outsideMemory 12) := by decide

theorem witness_SelfJumpNeverEnds :
    (mk 10 [3, 0] 8).status = .running ∧ (mk 10 [3, 0] 8).flag = false ∧ (mk 10 [3, 0] 8).cfg.tags.admissible ∧
    (mk 10 [3, 0] 8).holdsAtIp (.jne 0) :=
  ⟨by decide, by decide, by decide, holdsAtIp_of_check (by decide) (by decide) (by decide)⟩

/-- A push into the last slot and a pop of the only word. -/
theorem witness_StepKeepsStackPointerInRegion :
    (mk 0 [4, 0] 11).stackOk ∧ step (mk 0 [4, 0] 11) = .next (go (mk 0 [4, 0] 11)) ∧
    (mk 0 [5, 0] 9).stackOk ∧ step (mk 0 [5, 0] 9) = .next (go (mk 0 [5, 0] 9)) :=
  ⟨by decide, eq_next_of_nextOf (by decide), by decide, eq_next_of_nextOf (by decide)⟩

theorem witness_ReachedStackPointerInBounds :
    (2 ≤ 2 ∧ 2 ≤ Config.maxLen) ∧
    runsTo 1 (State.release ⟨2, 2, Tags.default⟩ [(0, 11)]) (go (State.release ⟨2, 2, Tags.default⟩ [(0, 11)])) :=
  ⟨by decide, run_succ_of_next (eq_next_of_nextOf (by decide))⟩

theorem witness_StepKeepsMemoryCanonical :
    (mk 0 [4, 0] 11).memOk ∧ step (mk 0 [4, 0] 11) = .next (go (mk 0 [4, 0] 11)) ∧ (mk 0 [4, 0] 11).cfg.len ≤ 12 :=
  ⟨by decide, eq_next_of_nextOf (by decide), by decide⟩

/-- An empty stack popped; a decode fault; a completing step; a safe run and one that ends in a decode fault. -/
theorem witness_FaultsWhereOriginalWasUndefined :
    ((mk 0 [1] 8).status = .running ∧ (mk 0 [1] 8).firstFault = some ⟨.stackUnderflow, 8, 0⟩) ∧
    ((mk 0 [99] 8).firstFault = some ⟨.decodeFault, 99, 0⟩ ∧ (mk 0 [99] 8).stackOk) ∧
    ((mk 0 [11] 8).firstFault = none ∧ (mk 0 [11] 8).stackOk) ∧
    (runsTo 1 (mk 0 [11] 8) (go (mk 0 [11] 8)) ∧ (go (mk 0 [11] 8)).safe) ∧
    runsTo 1 (mk 0 [99] 8) (go (mk 0 [99] 8)) ∧ (go (mk 0 [99] 8)).fault.fcode = .decodeFault :=
  ⟨by decide, by decide, by decide, ⟨run_succ_of_next (eq_next_of_nextOf (by decide)), by decide⟩,
    run_succ_of_next (eq_next_of_nextOf (by decide)), by decide⟩

/-- In each of the three states of the machine. -/
theorem witness_StepKeepsFaultRecordFaithful :
    (mk 0 [99] 8).faultRecordOk ∧ step (mk 0 [99] 8) = .next (go (mk 0 [99] 8)) ∧ (go (mk 0 [99] 8)).faultRecordOk ∧
    (go (mk 0 [11] 8)).faultRecordOk :=
  ⟨(by decide : (mk 0 [99] 8).fault = ⟨.none, 0, 0⟩), eq_next_of_nextOf (by decide),
    (by decide : (go (mk 0 [99] 8)).fault.fcode ≠ .none ∧ (go (mk 0 [99] 8)).fault.fb = (go (mk 0 [99] 8)).ip),
    (by decide : (go (mk 0 [11] 8)).fault = ⟨.none, 0, 0⟩)⟩

theorem witness_StepKeepsPointersIn33Bits :
    (mk 10 [3, 2147483647] 8).cfg.lpSize ∧ (mk 10 [3, 2147483647] 8).stackOk ∧ (mk 10 [3, 2147483647] 8).pointersOk ∧
    step (mk 10 [3, 2147483647] 8) = .next (go (mk 10 [3, 2147483647] 8)) :=
  ⟨by decide, by decide, by decide, eq_next_of_nextOf (by decide)⟩

theorem witness_LaunchMeetsInvariants :
    Memory.wf [(0, 11), (11, 1)] = true ∧ Memory.within [(0, 11), (11, 1)] 12 = true := by decide

theorem witness_RegisterChangesOnlyWhereNamed :
    (mk 0 [6, 2, 1] 8).status = .running ∧ step (mk 0 [6, 2, 1] 8) = .next (go (mk 0 [6, 2, 1] 8)) ∧
    (go (mk 0 [6, 2, 1] 8)).regs.read .r2 ≠ (mk 0 [6, 2, 1] 8).regs.read .r2 :=
  ⟨by decide, eq_next_of_nextOf (by decide), by decide⟩

theorem witness_FlagChangesOnlyByCmp :
    step (mk 0 [2, 2, 7] 8) = .next (go (mk 0 [2, 2, 7] 8)) ∧ (go (mk 0 [2, 2, 7] 8)).flag ≠ (mk 0 [2, 2, 7] 8).flag :=
  ⟨eq_next_of_nextOf (by decide), by decide⟩

/-- A push and a pop: `sp` and, for the push, a word of memory change. -/
theorem witness_StackPointerMovesByOne :
    step (mk 0 [4, 0] 11) = .next (go (mk 0 [4, 0] 11)) ∧ (go (mk 0 [4, 0] 11)).sp ≠ (mk 0 [4, 0] 11).sp ∧
    step (mk 0 [5, 0] 9) = .next (go (mk 0 [5, 0] 9)) ∧ (go (mk 0 [5, 0] 9)).sp ≠ (mk 0 [5, 0] 9).sp :=
  ⟨eq_next_of_nextOf (by decide), by decide, eq_next_of_nextOf (by decide), by decide⟩

theorem witness_MemoryChangesOnlyByPush :
    step (mk 0 [4, 0] 11) = .next (go (mk 0 [4, 0] 11)) ∧
    Memory.read (go (mk 0 [4, 0] 11)).mem 11 ≠ Memory.read (mk 0 [4, 0] 11).mem 11 :=
  ⟨eq_next_of_nextOf (by decide), by decide⟩

theorem witness_OutputGrowsOnlyByPrint :
    step (mk 0 [10, 2] 8) = .next (go (mk 0 [10, 2] 8)) ∧ (go (mk 0 [10, 2] 8)).out ≠ (mk 0 [10, 2] 8).out :=
  ⟨eq_next_of_nextOf (by decide), by decide⟩

theorem witness_StatusLeavesRunningOnlyByExitOrFault :
    step (mk 0 [11] 8) = .next (go (mk 0 [11] 8)) ∧ (go (mk 0 [11] 8)).status ≠ .running ∧
    step (mk 0 [99] 8) = .next (go (mk 0 [99] 8)) ∧ (go (mk 0 [99] 8)).status ≠ .running :=
  ⟨eq_next_of_nextOf (by decide), by decide, eq_next_of_nextOf (by decide), by decide⟩

theorem witness_ConfigurationIsConstant : runsTo 1 (mk 0 [6, 2, 1] 8) (go (mk 0 [6, 2, 1] 8)) :=
  run_succ_of_next (eq_next_of_nextOf (by decide))

theorem witness_MemReadAfterMemWrite :
    11 < (mk 0 [] 8).cfg.len ∧ (-1 : Int) ≠ (11 : Nat) ∧ ((mk 0 [] 8).memRead 11).isSome = true ∧
    ((mk 0 [] 8).memRead 12).isSome = false ∧ ((mk 0 [] 8).memRead (-1)).isSome = false := by decide

/-- After one step of a launch, the next step is a push that issues a write. -/
theorem witness_CodeRegionIsNeverWritten :
    (State.boot 4 6 Tags.default [4, 0, 4, 0]).cfg.stackBase ≤ (State.boot 4 6 Tags.default [4, 0, 4, 0]).cfg.len ∧
    runsTo 1 (State.boot 4 6 Tags.default [4, 0, 4, 0]) (go (State.boot 4 6 Tags.default [4, 0, 4, 0])) ∧
    .write 5 0 ∈ (go (State.boot 4 6 Tags.default [4, 0, 4, 0])).transactions :=
  ⟨by decide, run_succ_of_next (eq_next_of_nextOf (by decide)), by decide⟩

/-- RET straight after CALL, in the last slot; the CALL fills the last two words of the memory. -/
theorem witness_CallThenRetReturnsAfterCall :
    let s := mk 9 [0, 0] 11
    let t := (s.push (wrap32 (s.ip + 2))).jump 0
    0 ≤ s.ip ∧ s.ip + 1 < s.cfg.len ∧ s.cfg.len ≤ Config.maxLen ∧ s.cfg.stackBase ≤ s.sp ∧ s.sp < s.cfg.len ∧
    nextOf (exec (.call 0) s) = some t ∧ t.cfg = s.cfg ∧ t.sp = s.sp + 1 := by decide

theorem witness_PushThenPopRoundTrips :
    let s := mk 0 [] 8
    let t := (s.push (s.regs.read .r1)).advance 2
    (1 : Word).toInt = Reg.r1.num ∧ (2 : Word).toInt = Reg.r2.num ∧ s.cfg.stackBase ≤ s.sp ∧ s.sp < s.cfg.len ∧
    nextOf (exec (.push 1) s) = some t ∧ t.cfg = s.cfg ∧ t.sp = t.sp := by decide

theorem witness_PushThenRetJumpsThroughRegister :
    (1 : Word).toInt = Reg.r1.num ∧ (mk 0 [] 11).cfg.stackBase ≤ (mk 0 [] 11).sp ∧
    (mk 0 [] 11).sp < (mk 0 [] 11).cfg.len ∧ (nextOf (exec (.push 1) (mk 0 [] 11))).isSome = true := by decide

/-- The equal and the unequal comparison. -/
theorem witness_CmpThenJneFollowsComparison :
    (1 : Word).toInt = Reg.r1.num ∧ (nextOf (exec (.cmp 1 (-2)) (mk 0 [] 8))).isSome = true ∧
    (mk 0 [] 8).regs.read .r1 = -2 ∧ (mk 0 [] 8).regs.read .r1 ≠ 2 := by decide

theorem witness_StoredWordIsFetchedAtOnce :
    let s : State := { mk 6 [4, 0] 8 with regs := ⟨11, 0, 0⟩ }
    s.status = .running ∧ s.cfg.tags.admissible ∧ (0 : Word).toInt = Reg.r0.num ∧ s.holdsAtIp (.push 0) ∧
    s.ip + 2 = s.sp ∧ s.sp < s.cfg.len ∧ s.regs.read .r0 = s.cfg.tags.exit :=
  ⟨by decide, by decide, by decide, holdsAtIp_of_check (by decide) (by decide) (by decide), by decide, by decide,
    by decide⟩

/-- The written word fetched as a tag by the next step (`k = 0`), and as an operand one step later (`k = 1`), no write
to it in between: a CALL to 5 pushes to 8, a JNE at 5 jumps to 7, where the word at 8 is the operand. -/
theorem witness_StoredWordIsFetchedAtOnce_later :
    let s := mk 6 [4, 0] 8
    let c : State := { mk 0 [0, 5] 8 with mem := Memory.load [] 0 [0, 5, 0, 0, 0, 3, 2, 3] }
    step s = .next (go s) ∧ .write 8 5 ∈ s.transactions ∧ (go s).ip + (0 : Nat) = (8 : Nat) ∧
    step c = .next (go c) ∧ .write 8 2 ∈ c.transactions ∧ runsTo 1 (go c) (go (go c)) ∧
    (∀ w : Word, .write 8 w ∉ (go c).transactions) ∧ (go (go c)).ip + (1 : Nat) = (8 : Nat) := by
  refine ⟨eq_next_of_nextOf (by decide), by decide, by decide, eq_next_of_nextOf (by decide), by decide,
    run_succ_of_next (eq_next_of_nextOf (by decide)), fun w h => ?_, by decide⟩
  have e : (go { mk 0 [0, 5] 8 with mem := Memory.load [] 0 [0, 5, 0, 0, 0, 3, 2, 3] }).transactions =
    [.read 5 3, .read 6 2] := by decide
  rw [e] at h
  simp at h

theorem fetchesBelow_of_check {s : State} {n : Nat} {l : List Nat}
    (h : s.fetchReads.map (fun x => match x with | .read a _ => a | .write a _ => a | .output _ => 0) = l)
    (hl : ∀ a ∈ l, a < n) : s.fetchesBelow n := by
  intro a w hx
  exact hl a (h ▸ List.mem_map.2 ⟨_, hx, rfl⟩)

/-- The free word at `sp` itself differs; a RET, a PUSH and a SET that end at `STACK_BASE - 1`, a decode fault there, and
an instruction inside the occupied stack. -/
theorem witness_FreeStackContentsDoNotMatter :
    (∀ s ∈ [mk 7 [1] 9, mk 6 [4, 0] 9, mk 5 [6, 0, 5] 9, mk 7 [99] 9, mk 8 [11] 9],
      sameButFreeStack s { s with mem := s.mem ++ [(9, 77)] } ∧ s.stackOk ∧ s.fetchesBelow s.sp ∧
      step s = .next (go s)) := by
  simp only [List.forall_mem_cons, List.not_mem_nil, false_imp_iff, implies_true, and_true]
  exact ⟨⟨by decide, by decide, fetchesBelow_of_check (l := [7]) (by decide) (by decide), eq_next_of_nextOf (by decide)⟩,
    ⟨by decide, by decide, fetchesBelow_of_check (l := [6, 7]) (by decide) (by decide), eq_next_of_nextOf (by decide)⟩,
    ⟨by decide, by decide, fetchesBelow_of_check (l := [5, 6, 7]) (by decide) (by decide), eq_next_of_nextOf (by decide)⟩,
    ⟨by decide, by decide, fetchesBelow_of_check (l := [7]) (by decide) (by decide), eq_next_of_nextOf (by decide)⟩,
    ⟨by decide, by decide, fetchesBelow_of_check (l := [8]) (by decide) (by decide), eq_next_of_nextOf (by decide)⟩⟩

/-- The word at 11 is out of reach of the smaller `LEN` 11, within that of 12. -/
theorem witness_ResetStartsAfreshOverTheSameMemory :
    Memory.wf (go (mk 0 [4, 0] 11)).mem = true ∧ 11 < 12 ∧ ¬ 11 < 11 ∧
    Memory.within (go (mk 0 [4, 0] 11)).mem 12 = true ∧ Memory.within (go (mk 0 [4, 0] 11)).mem 11 = false := by decide

theorem witness_HostTouchesMemoryOnlyOutsideARun :
    (mk 0 [11] 8).status = .running ∧ (go (mk 0 [11] 8)).status ≠ .running ∧ 11 < (go (mk 0 [11] 8)).cfg.len ∧
    ([4, 0, 9] : List Word)[2]? = some 9 ∧ 2 < 3 := by decide

theorem witness_PortAddressesAreValid :
    .read 11 1 ∈ (mk 11 [1] 8).transactions ∧ .write 11 5 ∈ (mk 0 [4, 0] 11).transactions := by decide

theorem witness_TransactionsAccountForEffects :
    step (mk 0 [4, 0] 11) = .next (go (mk 0 [4, 0] 11)) ∧ .write 11 5 ∈ (mk 0 [4, 0] 11).transactions ∧
    Memory.read (go (mk 0 [4, 0] 11)).mem 11 ≠ Memory.read (mk 0 [4, 0] 11).mem 11 :=
  ⟨eq_next_of_nextOf (by decide), by decide, by decide⟩

theorem witness_TransactionCountPerInstruction :
    (mk 0 [1] 9).status = .running ∧ (mk 0 [1] 9).fetch = .ok .ret ∧
    (nextOf (exec .ret (mk 0 [1] 9))).map State.status = some .running := by decide

/-- A completing step, and a faulting one of each kind. -/
theorem witness_TransactionListPerStep :
    (∀ s ∈ [mk 0 [0, 6] 11, mk 12 [] 8, mk 0 [99] 8, mk 10 [6, 7] 8, mk 0 [7, 2, 3] 8, mk 0 [4, 0] 12, mk 0 [1] 8],
      s.status = .running ∧ (nextOf (step s)).isSome = true) ∧
    [mk 0 [0, 6] 11, mk 12 [] 8, mk 0 [99] 8, mk 10 [6, 7] 8, mk 0 [7, 2, 3] 8, mk 0 [4, 0] 12, mk 0 [1] 8].map
      (fun s => (go s).fault.fcode) =
      [.none, .fetchOutOfRange, .decodeFault, .fetchOutOfRange, .registerIndex, .stackOverflow, .stackUnderflow] := by
  decide

end Sys2Proof.Tests
end

section
/-! SUPPORT. `wrap32` in terms of `toInt` (R7, R83), and the configuration along a step and a run (R5, R25). -/

namespace Sys2Proof.Machine

/-! ### Wrap-around -/

@[simp] theorem toInt_wrap32 (n : Int) : (wrap32 n).toInt = n.bmod (2 ^ 32) := BitVec.toInt_ofInt n

theorem dvd_toInt_wrap32_sub (n : Int) : (2 ^ 32 : Int) ∣ (wrap32 n).toInt - n := by
  rw [toInt_wrap32]
  exact Int.dvd_bmod_sub_self

theorem word_toInt_range (w : Word) : -2 ^ 31 ≤ w.toInt ∧ w.toInt < 2 ^ 31 :=
  ⟨BitVec.le_toInt w, BitVec.toInt_lt⟩

/-- The wrapped exact sum is the 32-bit sum of the bit patterns (R83). -/
theorem wrap32_toInt_add_toInt (a b : Word) : wrap32 (a.toInt + b.toInt) = a + b :=
  BitVec.eq_of_toInt_eq (by rw [toInt_wrap32, BitVec.toInt_add])

/-- The wrapped exact difference is the 32-bit difference of the bit patterns (R83). -/
theorem wrap32_toInt_sub_toInt (a b : Word) : wrap32 (a.toInt - b.toInt) = a - b :=
  BitVec.eq_of_toInt_eq (by rw [toInt_wrap32, BitVec.toInt_sub])

theorem wrap32_toInt_sub_one (a : Word) : wrap32 (a.toInt - 1) = a - 1 :=
  wrap32_toInt_sub_toInt a 1

/-! ### The configuration -/

/-- No instruction's effect writes the configuration: each is a composition of state operations that keep it. -/
theorem Effect.cfg_eq {i : Instr} {s t : State} (h : Effect i s t) : t.cfg = s.cfg := by
  cases i with
  | call addr => obtain ⟨_, rfl⟩ := h; simp
  | ret => obtain ⟨_, _, rfl⟩ := h; simp
  | cmp r1 c => obtain ⟨_, _, rfl⟩ := h; simp
  | jne offset => obtain ⟨_, rfl⟩ | ⟨_, rfl⟩ := h <;> simp
  | push r => obtain ⟨_, _, _, rfl⟩ := h; simp
  | pop r => obtain ⟨_, _, _, _, rfl⟩ := h; simp
  | set r c => obtain ⟨_, _, rfl⟩ := h; simp
  | copy rSrc rDst => obtain ⟨_, _, _, _, rfl⟩ := h; simp
  | add rDst rSrc => obtain ⟨_, _, _, _, rfl⟩ := h; simp
  | dec r => obtain ⟨_, _, rfl⟩ := h; simp
  | print r => obtain ⟨_, _, rfl⟩ := h; simp
  | exit => rw [show t = s.halt from h, State.halt_cfg]

theorem exec_cfg_eq {i : Instr} {s t : State} (h : exec i s = .next t) : t.cfg = s.cfg := by
  rcases exec_cases h with hc | he
  · obtain ⟨_, _, _, rfl⟩ := hc.eq_raise
    exact State.raise_cfg ..
  · exact he.cfg_eq

/-- A terminal state stays, a failed fetch writes the status and the record only, an instruction keeps the
configuration. -/
theorem step_cfg_eq {s t : State} (h : step s = .next t) : t.cfg = s.cfg := by
  rcases step_cases h with ⟨_, rfl⟩ | ⟨_, e, _, rfl⟩ | ⟨_, i, _, he⟩
  · rfl
  · obtain ⟨_, _, _, hraise⟩ := s.raiseFetch_eq_raise e
    rw [hraise, State.raise_cfg]
  · exact exec_cfg_eq he

theorem run_cfg_eq {k : Nat} {s t : State} (h : Host.Core.run Sys2Proof.core k s = .next t) : t.cfg = s.cfg :=
  run_induction (P := fun u => u.cfg = s.cfg) (fun _ _ hu hstep => (step_cfg_eq hstep).trans hu) k s t rfl h

end Sys2Proof.Machine
end

section
/-! The statements on scope and parameters (`spec/00_scope.md`), settled. -/

namespace Sys2Proof.Proofs

open Sys2Proof.Machine

/-- Settles O44: every step keeps the configuration, so every run does. -/
theorem configurationIsConstant : Obligations.ConfigurationIsConstant :=
  fun _ _ _ h => run_cfg_eq h

/-- Settles O53: `toInt (wrap32 n)` is the balanced remainder of `n` modulo `2^32`, and a word is fixed by its
`toInt`. -/
theorem wrapAroundIsModular : Obligations.WrapAroundIsModular :=
  ⟨fun n => ⟨dvd_toInt_wrap32_sub n, word_toInt_range (wrap32 n)⟩, wrap32_toInt_add_toInt, wrap32_toInt_sub_one⟩

end Sys2Proof.Proofs
end

section
/-! SUPPORT. Inversion of the decoder (R59 to R61), what an effect writes sorted by state operation, and the four
invariants of a step: stack pointer (R20), fault record (R24), pointers (R18), terminal state (R23). -/

namespace Sys2Proof

/-! ### The decoder, inverted -/

theorem readOne_eq_error {get : Nat → Option Word} {build : Word → Instr} {e : DecodeError}
    (h : readOne get build = .error e) : e = .missing 1 := by
  unfold readOne at h
  split at h <;> cases h
  rfl

theorem readTwo_eq_error {get : Nat → Option Word} {build : Word → Word → Instr} {e : DecodeError}
    (h : readTwo get build = .error e) : e = .missing 1 ∨ e = .missing 2 := by
  unfold readTwo at h
  split at h
  · cases h
    exact .inl rfl
  · split at h <;> cases h
    exact .inr rfl

/-- Operands fail only where the memory ends before the first or the second of them (R61). -/
theorem readOperands_eq_error {m : Opcode} {get : Nat → Option Word} {e : DecodeError}
    (h : readOperands m get = .error e) : e = .missing 1 ∨ e = .missing 2 := by
  cases m with
  | ret | exit => cases h
  | cmp | set | copy | add => exact readTwo_eq_error h
  | call | jne | push | pop | dec | print => exact .inl (readOne_eq_error h)

theorem decodeWith_eq_ok {T : Tags} {get : Nat → Option Word} {i : Instr} (h : decodeWith T get = .ok i) :
    ∃ w m, get 0 = some w ∧ T.opcodeOf w = some m ∧ readOperands m get = .ok i := by
  unfold decodeWith at h
  split at h
  · cases h
  · next w hw =>
    split at h
    · cases h
    · next m hm => exact ⟨w, m, hw, hm, h⟩

/-- Why decoding fails: no tag word, a word that is no tag, or an operand that is not there. -/
theorem decodeWith_eq_error {T : Tags} {get : Nat → Option Word} {e : DecodeError} (h : decodeWith T get = .error e) :
    (get 0 = none ∧ e = .missing 0) ∨
    (∃ w, get 0 = some w ∧ T.opcodeOf w = none ∧ e = .unknownTag w) ∨
    (∃ w m, get 0 = some w ∧ T.opcodeOf w = some m ∧ (e = .missing 1 ∨ e = .missing 2)) := by
  unfold decodeWith at h
  split at h
  · next hw =>
    cases h
    exact .inl ⟨hw, rfl⟩
  · next w hw =>
    split at h
    · next hm =>
      cases h
      exact .inr (.inl ⟨w, hw, hm, rfl⟩)
    · next m hm => exact .inr (.inr ⟨w, m, hw, hm, readOperands_eq_error h⟩)

end Sys2Proof

namespace Sys2Proof.Machine

/-- A tag word is there exactly where `ip` is a valid index (R59). -/
theorem State.fetchWord_zero_eq_some {s : State} {w : Word} (h : s.fetchWord 0 = some w) :
    0 ≤ s.ip ∧ s.ip < s.cfg.len := by
  have hip := ((s.memRead_eq_some _ _).1 h).1
  simpa using hip

theorem State.ip_range_of_fetch_ok {s : State} {i : Instr} (h : s.fetch = .ok i) : 0 ≤ s.ip ∧ s.ip < s.cfg.len := by
  obtain ⟨w, m, hw, _, _⟩ := decodeWith_eq_ok h
  exact State.fetchWord_zero_eq_some hw

/-- An operand word can be missing only behind a tag word that is there, and at most two places behind it. -/
theorem State.ip_range_of_fetch_missing {s : State} {j : Nat} (h : s.fetch = .error (.missing j)) :
    j = 0 ∨ (j ≤ 2 ∧ 0 ≤ s.ip ∧ s.ip < s.cfg.len) := by
  rcases decodeWith_eq_error h with ⟨_, e⟩ | ⟨w, _, _, e⟩ | ⟨w, m, hw, _, e⟩
  · cases e
    exact .inl rfl
  · cases e
  · have hj : j ≤ 2 := by rcases e with e | e <;> cases e <;> decide
    exact .inr ⟨hj, State.fetchWord_zero_eq_some hw⟩

/-! ### What an effect writes -/

/-- `w` is the operand of the instruction that names the register it writes (R12, R81). -/
abbrev Instr.namesDest (i : Instr) (w : Word) : Prop :=
  i = .pop w ∨ (∃ c : Word, i = .set w c) ∨ (∃ a : Word, i = .copy a w) ∨ (∃ a : Word, i = .add w a) ∨ i = .dec w

/-- The effects of the twelve instructions sorted by the state operation that they perform beside the move of `ip`, each
with the instructions that perform it. -/
inductive Writes (i : Instr) (s : State) : State → Prop
  | nothing (n : Int) : Writes i s (s.jump n)
  | flag (r1 c : Word) (b : Bool) (n : Int) (hi : i = .cmp r1 c) : Writes i s ((s.setFlag b).jump n)
  | push (w : Word) (n : Int) (hi : i.opcode = .call ∨ i.opcode = .push) (hsp : s.sp < s.cfg.len) :
    Writes i s ((s.push w).jump n)
  | drop (n : Int) (hi : i.opcode = .ret) (hsp : s.cfg.stackBase < s.sp) : Writes i s (s.dropTop.jump n)
  | dropInto (r : Word) (q : Reg) (w : Word) (n : Int) (hi : i = .pop r) (hq : r.toInt = q.num)
    (hsp : s.cfg.stackBase < s.sp) : Writes i s ((s.dropTop.writeReg q w).jump n)
  | reg (r : Word) (q : Reg) (w : Word) (n : Int) (hi : Instr.namesDest i r) (hq : r.toInt = q.num) :
    Writes i s ((s.writeReg q w).jump n)
  | output (r : Word) (q : Reg) (n : Int) (hi : i = .print r) (hq : r.toInt = q.num) :
    Writes i s ((s.emit (s.regs.read q)).jump n)
  | halt (hi : i = .exit) : Writes i s s.halt

theorem Effect.writes {i : Instr} {s t : State} (h : Effect i s t) : Writes i s t := by
  cases i with
  | call addr =>
    obtain ⟨hsp, rfl⟩ := h
    exact .push _ _ (.inl rfl) hsp
  | ret =>
    obtain ⟨hsp, _, rfl⟩ := h
    exact .drop _ rfl hsp
  | cmp r1 c =>
    obtain ⟨q, _, rfl⟩ := h
    exact .flag r1 c _ _ rfl
  | jne offset =>
    obtain ⟨_, rfl⟩ | ⟨_, rfl⟩ := h
    · exact .nothing _
    · exact .nothing _
  | push r =>
    obtain ⟨q, _, hsp, rfl⟩ := h
    exact .push _ _ (.inr rfl) hsp
  | pop r =>
    obtain ⟨q, hq, hsp, _, rfl⟩ := h
    exact .dropInto r q _ _ rfl hq hsp
  | set r c =>
    obtain ⟨q, hq, rfl⟩ := h
    exact .reg r q _ _ (.inr (.inl ⟨c, rfl⟩)) hq
  | copy rSrc rDst =>
    obtain ⟨a, d, _, hd, rfl⟩ := h
    exact .reg rDst d _ _ (.inr (.inr (.inl ⟨rSrc, rfl⟩))) hd
  | add rDst rSrc =>
    obtain ⟨d, a, hd, _, rfl⟩ := h
    exact .reg rDst d _ _ (.inr (.inr (.inr (.inl ⟨rSrc, rfl⟩)))) hd
  | dec r =>
    obtain ⟨q, hq, rfl⟩ := h
    exact .reg r q _ _ (.inr (.inr (.inr (.inr rfl)))) hq
  | print r =>
    obtain ⟨q, hq, rfl⟩ := h
    exact .output r q _ rfl hq
  | exit =>
    obtain rfl : t = s.halt := h
    exact .halt rfl

theorem Writes.cfg_eq {i : Instr} {s t : State} (h : Writes i s t) : t.cfg = s.cfg := by
  cases h <;> rfl

/-- No effect writes the fault record (R24). -/
theorem Writes.fault_eq {i : Instr} {s t : State} (h : Writes i s t) : t.fault = s.fault := by
  cases h <;> rfl

/-- Only EXIT writes the status, and it leaves `ip` (R16, R86). -/
theorem Writes.status_cases {i : Instr} {s t : State} (h : Writes i s t) :
    t.status = s.status ∨ (i = .exit ∧ t.status = .exited ∧ t.ip = s.ip) := by
  cases h with
  | halt hi => exact .inr ⟨hi, rfl, rfl⟩
  | _ => exact .inl rfl

/-- All that an effect does to the stack pointer (R21), with the bound that lets it (R63). -/
theorem Writes.sp_cases {i : Instr} {s t : State} (h : Writes i s t) :
    t.sp = s.sp ∨
    ((i.opcode = .call ∨ i.opcode = .push) ∧ s.sp < s.cfg.len ∧ t.sp = s.sp + 1) ∨
    ((i.opcode = .ret ∨ i.opcode = .pop) ∧ s.cfg.stackBase < s.sp ∧ t.sp + 1 = s.sp) := by
  cases h with
  | push w n hi hsp => exact .inr (.inl ⟨hi, hsp, rfl⟩)
  | drop n hi hsp => exact .inr (.inr ⟨.inl hi, hsp, Nat.sub_add_cancel (by omega)⟩)
  | dropInto r q w n hi hq hsp => exact .inr (.inr ⟨.inr (by rw [hi]; rfl), hsp, Nat.sub_add_cancel (by omega)⟩)
  | _ => exact .inl rfl

/-- Where an effect leaves `ip`: at a word's value, or a word's value away from where it was (R16, R18). -/
theorem Effect.ip_cases {i : Instr} {s t : State} (h : Effect i s t) :
    (∃ w : Word, t.ip = w.toInt) ∨ (∃ w : Word, t.ip = s.ip + w.toInt) := by
  cases i with
  | call addr =>
    obtain ⟨_, rfl⟩ := h
    exact .inl ⟨addr, rfl⟩
  | ret =>
    obtain ⟨_, _, rfl⟩ := h
    exact .inl ⟨_, rfl⟩
  | jne offset =>
    obtain ⟨_, rfl⟩ | ⟨_, rfl⟩ := h
    · exact .inr ⟨offset, rfl⟩
    · exact .inr ⟨2, rfl⟩
  | cmp r1 c => obtain ⟨_, _, rfl⟩ := h; exact .inr ⟨3, rfl⟩
  | push r => obtain ⟨_, _, _, rfl⟩ := h; exact .inr ⟨2, rfl⟩
  | pop r => obtain ⟨_, _, _, _, rfl⟩ := h; exact .inr ⟨2, rfl⟩
  | set r c => obtain ⟨_, _, rfl⟩ := h; exact .inr ⟨3, rfl⟩
  | copy rSrc rDst => obtain ⟨_, _, _, _, rfl⟩ := h; exact .inr ⟨3, rfl⟩
  | add rDst rSrc => obtain ⟨_, _, _, _, rfl⟩ := h; exact .inr ⟨3, rfl⟩
  | dec r => obtain ⟨_, _, rfl⟩ := h; exact .inr ⟨2, rfl⟩
  | print r => obtain ⟨_, _, rfl⟩ := h; exact .inr ⟨2, rfl⟩
  | exit =>
    obtain rfl : t = s.halt := h
    exact .inr ⟨0, (add_zero s.ip).symm⟩

/-- All that a step of a running machine writes: a fault's record, or what its instruction writes. -/
theorem step_running_writes {s t : State} (hs : s.status = .running) (h : step s = .next t) :
    (∃ (f : FaultCode) (a : Int), f ≠ .none ∧ t = s.raise f a s.ip) ∨
    (∃ i : Instr, s.fetch = .ok i ∧ Writes i s t) := by
  rcases step_running_cases hs h with hf | ⟨i, hi, _, he⟩
  · exact .inl hf
  · exact .inr ⟨i, hi, he.writes⟩

/-! ### Terminal states -/

/-- A terminal state has no step; the model answers it again (R23, R58; log 5). -/
theorem step_of_not_running {s : State} (hs : s.status ≠ .running) : step s = .next s := by
  unfold step
  split
  · exact absurd ‹_› hs
  · rfl
  · rfl

theorem run_of_not_running {s : State} (hs : s.status ≠ .running) (k : Nat) :
    Host.Core.run Sys2Proof.core k s = .next s := by
  induction k with
  | zero => exact run_zero s
  | succ k ih => rw [run_succ_of_next (step_of_not_running hs), ih]

/-- What a step of a running machine keeps, every step keeps. -/
theorem step_keeps_of_running {P : State → Prop} {s t : State}
    (hrun : s.status = .running → P t) (hs : P s) (h : step s = .next t) : P t := by
  by_cases hst : s.status = .running
  · exact hrun hst
  · rw [step_of_not_running hst] at h
    cases h
    exact hs

/-! ### The stack pointer in its region -/

/-- A push is let through below `LEN` only and a pop above `STACK_BASE` only, whatever the two are (R20, R97). -/
theorem Writes.stackOk {i : Instr} {s t : State} (h : Writes i s t) (hs : s.stackOk) : t.stackOk := by
  unfold State.stackOk at hs ⊢
  rw [h.cfg_eq]
  rcases h.sp_cases with hsp | ⟨_, hlen, hsp⟩ | ⟨_, hbase, hsp⟩ <;> omega

theorem step_keeps_stackOk {s t : State} (hs : s.stackOk) (h : step s = .next t) : t.stackOk := by
  refine step_keeps_of_running (fun hrun => ?_) hs h
  rcases step_running_writes hrun h with ⟨f, a, _, rfl⟩ | ⟨i, _, hw⟩
  · exact hs
  · exact hw.stackOk hs

theorem release_stackOk (cfg : Config) (mem : Memory) : (State.release cfg mem).stackOk :=
  ⟨le_refl cfg.stackBase, le_max_left _ _⟩

/-! ### The fault record and the status -/

theorem State.faultRecordOk_of_running {s : State} (hs : s.status = .running) :
    s.faultRecordOk ↔ s.fault = ⟨.none, 0, 0⟩ := by
  simp only [State.faultRecordOk, hs]

theorem State.faultRecordOk_of_exited {s : State} (hs : s.status = .exited) :
    s.faultRecordOk ↔ s.fault = ⟨.none, 0, 0⟩ := by
  simp only [State.faultRecordOk, hs]

/-- Raising a fault at `ip` leaves a faithful record, whatever the record was. -/
theorem State.raise_faultRecordOk (s : State) {f : FaultCode} (a : Int) (hf : f ≠ .none) :
    (s.raise f a s.ip).faultRecordOk :=
  ⟨hf, rfl⟩

theorem Writes.faultRecordOk {i : Instr} {s t : State} (h : Writes i s t) (hrun : s.status = .running)
    (hs : s.faultRecordOk) : t.faultRecordOk := by
  have hfault : t.fault = ⟨.none, 0, 0⟩ := h.fault_eq.trans ((State.faultRecordOk_of_running hrun).1 hs)
  rcases h.status_cases with hst | ⟨_, hst, _⟩
  · exact (State.faultRecordOk_of_running (hst.trans hrun)).2 hfault
  · exact (State.faultRecordOk_of_exited hst).2 hfault

theorem step_keeps_faultRecordOk {s t : State} (hs : s.faultRecordOk) (h : step s = .next t) : t.faultRecordOk := by
  refine step_keeps_of_running (fun hrun => ?_) hs h
  rcases step_running_writes hrun h with ⟨f, a, hf, rfl⟩ | ⟨i, _, hw⟩
  · exact s.raise_faultRecordOk a hf
  · exact hw.faultRecordOk hrun hs

theorem release_faultRecordOk (cfg : Config) (mem : Memory) : (State.release cfg mem).faultRecordOk :=
  (State.faultRecordOk_of_running rfl).2 rfl

/-! ### The pointers in the range of R18 -/

theorem pointerRange_toInt (w : Word) : pointerRange w.toInt := by
  have hw := word_toInt_range w
  unfold pointerRange
  omega

/-- An index below `LEN` and a word away from it: the extreme case of R18. -/
theorem pointerRange_index_add {s : State} (hsize : s.cfg.lpSize) (hip : 0 ≤ s.ip ∧ s.ip < s.cfg.len) (w : Word) :
    pointerRange (s.ip + w.toInt) := by
  obtain ⟨_, hlen⟩ := hsize
  have hw := word_toInt_range w
  unfold Config.maxLen at hlen
  unfold pointerRange
  omega

/-- Under `LP-SIZE` the stack pointer, as a payload (R100, R101), is in range. -/
theorem pointerRange_sp {s : State} (hsize : s.cfg.lpSize) (hs : s.stackOk) : pointerRange s.sp := by
  obtain ⟨hbase, hlen⟩ := hsize
  obtain ⟨_, hsp⟩ := hs
  unfold Config.maxLen at hlen
  unfold pointerRange
  omega

/-- 33 signed bits hold every value in range (R18, R25). -/
theorem payloadPort_toInt {n : Int} (h : pointerRange n) : (payloadPort n).toInt = n := by
  unfold pointerRange at h
  rw [payloadPort, BitVec.toInt_ofInt, Int.bmod_eq_of_le (by omega) (by omega)]

theorem State.raise_pointersOk {s : State} (f : FaultCode) {a : Int} (hip : pointerRange s.ip) (ha : pointerRange a) :
    (s.raise f a s.ip).pointersOk :=
  ⟨hip, ha, hip⟩

theorem State.raiseFetch_pointersOk {s : State} {e : DecodeError} (hsize : s.cfg.lpSize) (hip : pointerRange s.ip)
    (h : s.fetch = .error e) : (s.raiseFetch e).pointersOk := by
  cases e with
  | missing j =>
    refine State.raise_pointersOk .fetchOutOfRange hip ?_
    rcases State.ip_range_of_fetch_missing h with rfl | ⟨hj, hrange⟩
    · simpa using hip
    · have hlen := hsize.2
      unfold Config.maxLen at hlen
      unfold pointerRange
      omega
  | unknownTag w => exact State.raise_pointersOk .decodeFault hip (pointerRange_toInt w)

theorem CheckFault.pointersOk {s t : State} (h : CheckFault s t) (hsize : s.cfg.lpSize) (hs : s.stackOk)
    (hip : pointerRange s.ip) : t.pointersOk := by
  rcases h with ⟨w, _, rfl⟩ | ⟨_, rfl⟩ | ⟨_, rfl⟩
  · exact State.raise_pointersOk _ hip (pointerRange_toInt w)
  · exact State.raise_pointersOk _ hip (pointerRange_sp hsize hs)
  · exact State.raise_pointersOk _ hip (pointerRange_sp hsize hs)

/-- An instruction that was fetched sits at a valid index, so its successor is in range (R18). -/
theorem Effect.pointersOk {i : Instr} {s t : State} (h : Effect i s t) (hsize : s.cfg.lpSize) (hs : s.pointersOk)
    (hi : s.fetch = .ok i) : t.pointersOk := by
  have hip : pointerRange t.ip := by
    rcases h.ip_cases with ⟨w, e⟩ | ⟨w, e⟩ <;> rw [e]
    · exact pointerRange_toInt w
    · exact pointerRange_index_add hsize (State.ip_range_of_fetch_ok hi) w
  unfold State.pointersOk
  rw [h.writes.fault_eq]
  exact ⟨hip, hs.2⟩

theorem step_keeps_pointersOk {s t : State} (hsize : s.cfg.lpSize) (hstack : s.stackOk) (hs : s.pointersOk)
    (h : step s = .next t) : t.pointersOk := by
  rcases step_cases h with ⟨_, rfl⟩ | ⟨_, e, he, rfl⟩ | ⟨_, i, hi, hexec⟩
  · exact hs
  · exact State.raiseFetch_pointersOk hsize hs.1 he
  · rcases exec_cases hexec with hc | he
    · exact hc.pointersOk hsize hstack hs.1
    · exact he.pointersOk hsize hs hi

theorem release_pointersOk (cfg : Config) (mem : Memory) : (State.release cfg mem).pointersOk :=
  have hzero : pointerRange 0 := by decide
  ⟨hzero, hzero, hzero⟩

/-! ### The registers at reset -/

@[simp] theorem release_read (cfg : Config) (mem : Memory) (q : Reg) : (State.release cfg mem).regs.read q = 0 := by
  cases q <;> rfl

end Sys2Proof.Machine
end

section
/-! The statements on the state (`spec/10_state.md`), settled. -/

namespace Sys2Proof.Proofs

open Sys2Proof.Machine

/-! ## Invariants -/

/-- Settles O32: an instruction moves `sp` by one at most, and only past the check that keeps it in its region. -/
theorem stepKeepsStackPointerInRegion : Obligations.StepKeepsStackPointerInRegion :=
  fun _ _ => step_keeps_stackOk

/-- Settles O35: a fault writes a faithful record, an instruction leaves the empty one. -/
theorem stepKeepsFaultRecordFaithful : Obligations.StepKeepsFaultRecordFaithful :=
  fun _ _ => step_keeps_faultRecordOk

/-- Settles O26, by induction on the number of steps. -/
theorem terminalStatesDoNotChange : Obligations.TerminalStatesDoNotChange :=
  fun _ k hs => run_of_not_running hs k

/-- Settles O33: the region of O32, kept along the run from reset release, where the configuration is constant. -/
theorem reachedStackPointerInBounds : Obligations.ReachedStackPointerInBounds := by
  intro cfg mem k t hpremise hrun
  have hcfg : t.cfg = cfg := run_cfg_eq hrun
  obtain ⟨hlo, hhi⟩ : t.stackOk :=
    run_induction (P := State.stackOk) (fun _ _ => step_keeps_stackOk) k _ t (release_stackOk cfg mem) hrun
  rw [hcfg] at hlo hhi
  rw [max_eq_right hpremise] at hhi
  refine ⟨hlo, hhi, fun hlen => ?_⟩
  unfold Config.maxLen at hlen
  omega

/-- Settles O36: every payload a step can record, and every `ip` it can leave, is in range under `LP-SIZE`. -/
theorem stepKeepsPointersIn33Bits : Obligations.StepKeepsPointersIn33Bits := by
  intro s t hsize hstack hs h
  obtain ⟨hip, hfa, hfb⟩ : t.pointersOk := step_keeps_pointersOk hsize hstack hs h
  exact ⟨⟨hip, hfa, hfb⟩, payloadPort_toInt hip, payloadPort_toInt hfa, payloadPort_toInt hfb⟩

/-! ## What only some instructions may change -/

/-- Settles O38: POP writes through its operand, and so do the four register instructions; nothing else writes a
register. -/
theorem registerChangesOnlyWhereNamed : Obligations.RegisterChangesOnlyWhereNamed := by
  intro s t q hs h hne
  rcases step_running_writes hs h with ⟨f, a, _, rfl⟩ | ⟨i, hi, hw⟩
  · exact absurd rfl hne
  · have written {p : Reg} {v : Word} (hread : (s.regs.write p v).read q ≠ s.regs.read q) : q = p :=
      not_imp_comm.1 (Regs.read_write_other s.regs p q v) hread
    cases hw with
    | dropInto r p v n hpop hp hsp =>
      obtain rfl := written hne
      exact ⟨i, hi, r, hp, .inl hpop⟩
    | reg r p v n hdest hp =>
      obtain rfl := written hne
      exact ⟨i, hi, r, hp, hdest⟩
    | _ => exact absurd rfl hne

/-- Settles O39: of the effects only CMP's assigns the flag, and a fault leaves it. -/
theorem flagChangesOnlyByCmp : Obligations.FlagChangesOnlyByCmp := by
  intro s t hs h hne
  rcases step_running_writes hs h with ⟨f, a, _, rfl⟩ | ⟨i, hi, hw⟩
  · exact absurd rfl hne
  · cases hw with
    | flag r1 c b n hcmp => exact ⟨r1, c, hcmp ▸ hi⟩
    | _ => exact absurd rfl hne

/-- Settles O40: the four stack instructions move `sp` in their direction, and a fault leaves it. -/
theorem stackPointerMovesByOne : Obligations.StackPointerMovesByOne := by
  intro s t hs h hne
  rcases step_running_writes hs h with ⟨f, a, _, rfl⟩ | ⟨i, hi, hw⟩
  · exact absurd rfl hne
  · rcases hw.sp_cases with hsp | ⟨hop, _, hsp⟩ | ⟨hop, _, hsp⟩
    · exact absurd hsp hne
    · exact ⟨i, hi, .inl ⟨hop, hsp⟩⟩
    · exact ⟨i, hi, .inr ⟨hop, hsp⟩⟩

/-- Settles O42: of the effects only PRINT's emits a word, and a fault emits none. -/
theorem outputGrowsOnlyByPrint : Obligations.OutputGrowsOnlyByPrint := by
  intro s t hs h hne
  rcases step_running_writes hs h with ⟨f, a, _, rfl⟩ | ⟨i, hi, hw⟩
  · exact absurd rfl hne
  · cases hw with
    | output r q n hprint hq => exact ⟨r, q, hprint ▸ hi, hq, rfl⟩
    | _ => exact absurd rfl hne

/-- Settles O43: a fault leaves `ip`, and of the instructions only EXIT writes the status. -/
theorem statusLeavesRunningOnlyByExitOrFault : Obligations.StatusLeavesRunningOnlyByExitOrFault := by
  intro s t hs h hne
  rcases step_running_writes hs h with ⟨f, a, hf, rfl⟩ | ⟨i, hi, hw⟩
  · exact ⟨rfl, .inr ⟨rfl, hf⟩⟩
  · rcases hw.status_cases with hst | ⟨rfl, hst, hip⟩
    · exact absurd (hst.trans hs) hne
    · exact ⟨hip, .inl ⟨hst, hi⟩⟩

/-! ## Reset release -/

/-- Settles O37: for any configuration and memory, and so for those that `State.reset` takes. -/
theorem launchMeetsInvariants : Obligations.LaunchMeetsInvariants :=
  ⟨fun cfg mem =>
      ⟨release_stackOk cfg mem, release_faultRecordOk cfg mem, release_pointersOk cfg mem, fun hwf hin => ⟨hwf, hin⟩⟩,
    release_stackOk resetConfig [], release_faultRecordOk resetConfig [], release_pointersOk resetConfig [],
    ⟨rfl, rfl⟩, ⟨by decide, by decide⟩, Tags.default_admissible⟩

/-- Settles O54: `State.release` lists the values of R27 and takes the memory as it is. -/
theorem releaseGivesResetValues : Obligations.ReleaseGivesResetValues :=
  fun cfg mem => ⟨release_read cfg mem, rfl, rfl, rfl, rfl, rfl, rfl, fun _ => rfl⟩

end Sys2Proof.Proofs
end

section
/-! SUPPORT. What a step does to the memory (R30, R31), what it shows on the memory port (R90, R91), and steps of two
states that differ in the free part of the stack only (R39). -/

namespace Sys2Proof

/-! ### The decoder on a reader -/

/-- Decoding asks the reader for the tag and, behind a known tag, for the operand words of its format (R47). -/
theorem decodeWith_congr {T : Tags} {get get' : Nat → Option Word} (h0 : get 0 = get' 0)
    (h : ∀ w m, get 0 = some w → T.opcodeOf w = some m → ∀ j, 1 ≤ j → j ≤ m.kinds.length → get j = get' j) :
    decodeWith T get = decodeWith T get' := by
  unfold decodeWith
  rw [← h0]
  cases hw : get 0 with
  | none => rfl
  | some w =>
    cases hm : T.opcodeOf w with
    | none => simp only [hm]
    | some m => simpa only [hm] using readOperands_congr m (h w m hw hm)

/-- A reader that gives the encoding of an instruction decodes to it (R56, R60). -/
theorem decodeWith_of_encode {T : Tags} {get : Nat → Option Word} {i : Instr} (hT : T.admissible)
    (h : ∀ j w, (encode T i)[j]? = some w → get j = some w) : decodeWith T get = .ok i := by
  have htag : get 0 = some (T.tagOf i.opcode) := h 0 _ rfl
  have hop : readOperands i.opcode get = .ok i := by
    cases i with
    | ret | exit => rfl
    | cmp a b | set a b | copy a b | add a b => exact readTwo_eq_ok.2 ⟨a, b, h 1 a rfl, h 2 b rfl, rfl⟩
    | call a | jne a | push a | pop a | dec a | print a => exact readOne_eq_ok.2 ⟨a, h 1 a rfl, rfl⟩
  simp only [decodeWith, htag, Tags.opcodeOf_tagOf hT, hop]

end Sys2Proof

namespace Sys2Proof.Machine

theorem exists_reg_of_not_badIndex {w : Word} (h : ¬ badIndex w) : ∃ q : Reg, w.toInt = q.num := by
  cases hq : Reg.ofWord? w with
  | some q => exact ⟨q, (Reg.ofWord?_eq_some w q).1 hq⟩
  | none => exact absurd ((Reg.ofWord?_eq_none w).1 hq) h

/-- The words of an instruction at a valid index are what the fetch finds there (R44, R61). -/
theorem State.fetch_of_holdsAtIp {s : State} {i : Instr} (hT : s.cfg.tags.admissible) (h : s.holdsAtIp i) :
    s.fetch = .ok i := by
  obtain ⟨hip, hlen, hwords⟩ := h
  refine decodeWith_of_encode hT fun j w hj => (s.memRead_eq_some _ w).2 ?_
  have hsize : j < i.size := by
    have hlt := (List.getElem?_eq_some_iff.1 hj).1
    simp only [encode, List.length_cons] at hlt
    unfold Instr.size
    omega
  refine ⟨by omega, ?_⟩
  rw [← hwords j w hj]
  congr 1
  omega

theorem step_of_fetch_ok {s : State} {i : Instr} (hs : s.status = .running) (h : s.fetch = .ok i) :
    step s = exec i s := by
  simp only [step, hs, h]

/-- EXIT is one word: its tag at `ip` is enough (R52, R86). -/
theorem State.fetch_of_exit_tag {s : State} (hT : s.cfg.tags.admissible)
    (h : s.fetchWord 0 = some s.cfg.tags.exit) : s.fetch = .ok .exit := by
  refine decodeWith_of_encode hT fun j w hj => ?_
  cases j with
  | zero =>
    cases hj
    exact h
  | succ j => cases hj

theorem step_of_fetch_error {s : State} {e : DecodeError} (hs : s.status = .running) (h : s.fetch = .error e) :
    step s = .next (s.raiseFetch e) := by
  simp only [step, hs, h]

/-- A run of at least one step, taken apart. -/
theorem run_succ_eq_next {k : Nat} {s t : State} (h : Host.Core.run Sys2Proof.core (k + 1) s = .next t) :
    ∃ s' : State, step s = .next s' ∧ Host.Core.run Sys2Proof.core k s' = .next t := by
  rw [run_succ] at h
  cases hs : step s with
  | next s' => exact ⟨s', rfl, by simpa only [hs] using h⟩
  | fault r => simp only [hs] at h; cases h
  | refused r => simp only [hs] at h; cases h

/-! ### `MemRead` and `MemWrite` (R32) -/

theorem State.memRead_isSome (s : State) (b : Int) : (s.memRead b).isSome = true ↔ 0 ≤ b ∧ b < s.cfg.len := by
  rw [← Option.ne_none_iff_isSome, ne_eq, s.memRead_eq_none, not_not]

theorem State.memRead_congr {s t : State} {b : Int} (hcfg : t.cfg = s.cfg)
    (h : 0 ≤ b → Memory.read t.mem b.toNat = Memory.read s.mem b.toNat) : t.memRead b = s.memRead b := by
  by_cases hb : 0 ≤ b
  · rw [State.memRead, State.memRead, hcfg, h hb]
  · rw [(t.memRead_eq_none b).2 fun hr => hb hr.1, (s.memRead_eq_none b).2 fun hr => hb hr.1]

theorem State.memRead_memWrite_same (s : State) {a : Nat} (w : Word) (ha : a < s.cfg.len) :
    (s.memWrite a w).memRead a = some w :=
  (State.memRead_nat (s.memWrite a w) a ha).trans (congrArg some (Memory.read_write_same s.mem a w))

theorem State.memRead_memWrite_other (s : State) {a : Nat} (w : Word) {b : Int} (hb : b ≠ a) :
    (s.memWrite a w).memRead b = s.memRead b :=
  State.memRead_congr rfl fun _ => Memory.read_write_other s.mem a b.toNat w (by omega)

/-! ### Running an instruction -/

theorem exec_call (addr : Word) (s : State) :
    exec (.call addr) s = pushThen (wrap32 (s.ip + 2)) s fun t => .next (t.jump (absoluteTarget addr)) := rfl

theorem exec_ret (s : State) : exec .ret s = popThen s fun w t => .next (t.jump (absoluteTarget w)) := rfl

theorem exec_push (r : Word) (s : State) :
    exec (.push r) s = regThen r s fun q => pushThen (s.regs.read q) s fun t => .next (t.advance 2) := rfl

theorem exec_pop (r : Word) (s : State) :
    exec (.pop r) s = regThen r s fun q => popThen s fun w t => .next ((t.writeReg q w).advance 2) := rfl

/-! ### Every step answers where the stack pointer is in its region (R32, R64) -/

theorem regThen_answers {w : Word} {s : State} {k : Reg → Result} (hk : ∀ q, ∃ t, k q = .next t) :
    ∃ t, regThen w s k = .next t := by
  rcases regThen_cases w s k with ⟨q, _, e⟩ | ⟨_, e⟩ <;> rw [e]
  · exact hk q
  · exact ⟨_, rfl⟩

theorem pushThen_answers {w : Word} {s : State} {k : State → Result} (hk : ∀ u, ∃ t, k u = .next t) :
    ∃ t, pushThen w s k = .next t := by
  rcases pushThen_cases w s k with ⟨_, e⟩ | ⟨_, e⟩ <;> rw [e]
  · exact hk _
  · exact ⟨_, rfl⟩

/-- Above `STACK_BASE` the pointer of a good state is at most `LEN`, so the word popped exists. -/
theorem popThen_answers {s : State} {k : Word → State → Result} (hs : s.stackOk) (hk : ∀ w u, ∃ t, k w u = .next t) :
    ∃ t, popThen s k = .next t := by
  rcases popThen_cases s k with ⟨_, e⟩ | ⟨_, _, e⟩ | ⟨hbase, hlen, _⟩
  · exact ⟨_, e⟩
  · rw [e]
    exact hk _ _
  · obtain ⟨_, hsp⟩ := hs
    omega

theorem exec_answers {s : State} (hs : s.stackOk) (i : Instr) : ∃ t, exec i s = .next t := by
  cases i with
  | call addr =>
    rw [exec_call]
    exact pushThen_answers fun _ => ⟨_, rfl⟩
  | ret => exact popThen_answers hs fun _ _ => ⟨_, rfl⟩
  | push r => exact regThen_answers fun _ => pushThen_answers fun _ => ⟨_, rfl⟩
  | pop r => exact regThen_answers fun _ => popThen_answers hs fun _ _ => ⟨_, rfl⟩
  | copy r r' | add r r' => exact regThen_answers fun _ => regThen_answers fun _ => ⟨_, rfl⟩
  | cmp r c | set r c => exact regThen_answers fun _ => ⟨_, rfl⟩
  | dec r | print r => exact regThen_answers fun _ => ⟨_, rfl⟩
  | jne offset | exit => exact ⟨_, rfl⟩

theorem step_answers {s : State} (hs : s.stackOk) : ∃ t, step s = .next t := by
  by_cases hrun : s.status = .running
  · cases hf : s.fetch with
    | ok i =>
      rw [step_of_fetch_ok hrun hf]
      exact exec_answers hs i
    | error e => exact ⟨_, step_of_fetch_error hrun hf⟩
  · exact ⟨s, step_of_not_running hrun⟩

/-! ### The words an instruction pushes -/

/-- The instruction passes its checks (R62, R63) and pushes the word: CALL its return index (R67), PUSH a register
(R73). -/
inductive Pushes (s : State) : Instr → Word → Prop
  | call (addr : Word) (hsp : s.sp < s.cfg.len) : Pushes s (.call addr) (wrap32 (s.ip + 2))
  | push (r : Word) (q : Reg) (hq : r.toInt = q.num) (hsp : s.sp < s.cfg.len) : Pushes s (.push r) (s.regs.read q)

theorem Pushes.sp_lt {s : State} {i : Instr} {w : Word} (h : Pushes s i w) : s.sp < s.cfg.len := by
  cases h <;> assumption

theorem Pushes.opcode {s : State} {i : Instr} {w : Word} (h : Pushes s i w) : i.opcode = .call ∨ i.opcode = .push := by
  cases h with
  | call => exact .inl rfl
  | push => exact .inr rfl

/-- An instruction that pushes completes, and writes nothing else beside `ip`. -/
theorem Pushes.exec_eq {s : State} {i : Instr} {w : Word} (h : Pushes s i w) :
    ∃ n : Int, exec i s = .next ((s.push w).jump n) := by
  cases h with
  | call addr hsp => exact ⟨absoluteTarget addr, by rw [exec_call, pushThen_of_lt _ s _ hsp]⟩
  | push r q hq hsp =>
    refine ⟨s.ip + 2, ?_⟩
    rw [exec_push, regThen_of_num r s _ q hq, pushThen_of_lt _ s _ hsp]
    rfl

/-- All that an effect does to the memory. -/
theorem Effect.mem_cases {i : Instr} {s t : State} (h : Effect i s t) :
    t.mem = s.mem ∨ ∃ w : Word, Pushes s i w ∧ t.mem = Memory.write s.mem s.sp w := by
  cases i with
  | call addr =>
    obtain ⟨hsp, rfl⟩ := h
    exact .inr ⟨_, .call addr hsp, rfl⟩
  | push r =>
    obtain ⟨q, hq, hsp, rfl⟩ := h
    exact .inr ⟨_, .push r q hq hsp, rfl⟩
  | ret => obtain ⟨_, _, rfl⟩ := h; exact .inl rfl
  | cmp r1 c => obtain ⟨_, _, rfl⟩ := h; exact .inl rfl
  | jne offset => obtain ⟨_, rfl⟩ | ⟨_, rfl⟩ := h <;> exact .inl rfl
  | pop r => obtain ⟨_, _, _, _, rfl⟩ := h; exact .inl rfl
  | set r c => obtain ⟨_, _, rfl⟩ := h; exact .inl rfl
  | copy rSrc rDst => obtain ⟨_, _, _, _, rfl⟩ := h; exact .inl rfl
  | add rDst rSrc => obtain ⟨_, _, _, _, rfl⟩ := h; exact .inl rfl
  | dec r => obtain ⟨_, _, rfl⟩ := h; exact .inl rfl
  | print r => obtain ⟨_, _, rfl⟩ := h; exact .inl rfl
  | exit =>
    obtain rfl : t = s.halt := h
    exact .inl rfl

/-- All that a step does to the memory (R30, R31): nothing, or the write of the word its instruction pushes. -/
theorem step_mem_cases {s t : State} (h : step s = .next t) :
    t.mem = s.mem ∨
    ∃ (i : Instr) (w : Word), s.status = .running ∧ s.fetch = .ok i ∧ Pushes s i w ∧
      t.mem = Memory.write s.mem s.sp w := by
  by_cases hs : s.status = .running
  · rcases step_running_cases hs h with ⟨f, a, _, rfl⟩ | ⟨i, hi, _, he⟩
    · exact .inl rfl
    · rcases he.mem_cases with hmem | ⟨w, hw, hmem⟩
      · exact .inl hmem
      · exact .inr ⟨i, w, hs, hi, hw, hmem⟩
  · rw [step_of_not_running hs] at h
    cases h
    exact .inl rfl

/-- A word that a step changes is the one at the old `sp`, where its instruction pushed. -/
theorem step_read_ne {s t : State} {a : Nat} (h : step s = .next t)
    (hne : Memory.read t.mem a ≠ Memory.read s.mem a) :
    a = s.sp ∧ s.status = .running ∧ ∃ (i : Instr) (w : Word), s.fetch = .ok i ∧ Pushes s i w := by
  rcases step_mem_cases h with hmem | ⟨i, w, hs, hi, hw, hmem⟩ <;> rw [hmem] at hne
  · exact absurd rfl hne
  · exact ⟨not_imp_comm.1 (Memory.read_write_other s.mem s.sp a w) hne, hs, i, w, hi, hw⟩

/-- What is not at `sp`, or lies beyond `LEN`, reads after a step as before it. -/
theorem step_read_eq {s t : State} {a : Nat} (h : step s = .next t) (ha : a ≠ s.sp ∨ s.cfg.len ≤ a) :
    Memory.read t.mem a = Memory.read s.mem a := by
  by_contra hne
  obtain ⟨rfl, _, _, _, _, hw⟩ := step_read_ne h hne
  have hsp := hw.sp_lt
  omega

/-! ### The canonical form (log 7) -/

theorem step_keeps_wf {s t : State} (hs : Memory.wf s.mem = true) (h : step s = .next t) : Memory.wf t.mem = true := by
  rcases step_mem_cases h with hmem | ⟨_, w, _, _, _, hmem⟩ <;> rw [hmem]
  · exact hs
  · exact Memory.wf_write s.mem s.sp w hs

theorem step_keeps_memOk {s t : State} (hs : s.memOk) (h : step s = .next t) : t.memOk := by
  obtain ⟨hwf, hin⟩ := hs
  refine ⟨step_keeps_wf hwf h, ?_⟩
  rw [step_cfg_eq h]
  rcases step_mem_cases h with hmem | ⟨_, w, _, _, hw, hmem⟩ <;> rw [hmem]
  · exact hin
  · exact Memory.within_write s.mem s.sp s.cfg.len w hw.sp_lt hin

/-! ### The transactions of a step, taken apart (R90, R91) -/

theorem State.mem_fetchRead {s : State} {j : Nat} {x : Transaction} :
    x ∈ s.fetchRead j ↔ ∃ w, s.fetchWord j = some w ∧ x = .read (s.ip + j).toNat w := by
  unfold State.fetchRead
  cases s.fetchWord j <;> simp

theorem State.fetchReads_of_missing {s : State} (h : s.fetchWord 0 = none) : s.fetchReads = [] := by
  simp only [State.fetchReads, h]

theorem State.fetchReads_of_unknown {s : State} {w : Word} (h : s.fetchWord 0 = some w)
    (hw : s.cfg.tags.opcodeOf w = none) : s.fetchReads = s.fetchRead 0 := by
  simp only [State.fetchReads, h, hw, List.append_nil]

theorem State.fetchReads_of_known {s : State} {w : Word} {m : Opcode} (h : s.fetchWord 0 = some w)
    (hw : s.cfg.tags.opcodeOf w = some m) : s.fetchReads = (List.range (1 + m.kinds.length)).flatMap s.fetchRead := by
  simp only [State.fetchReads, h, hw]
  cases m <;> simp [Opcode.kinds, List.range_succ]

/-- Word `j` of an instruction is one that the fetch asks for: the tag, or an operand word of a known opcode. -/
abbrev State.asksFor (s : State) (j : Nat) : Prop :=
  j = 0 ∨ ∃ w m, s.fetchWord 0 = some w ∧ s.cfg.tags.opcodeOf w = some m ∧ j ≤ m.kinds.length

/-- The reads of stages 1 to 3 are those of the words asked for. -/
theorem State.mem_fetchReads {s : State} {x : Transaction} :
    x ∈ s.fetchReads ↔ ∃ j, s.asksFor j ∧ x ∈ s.fetchRead j := by
  cases h : s.fetchWord 0 with
  | none => simp [State.fetchReads_of_missing h, State.asksFor, State.mem_fetchRead, h]
  | some w =>
    cases hw : s.cfg.tags.opcodeOf w with
    | none => simp [State.fetchReads_of_unknown h hw, State.asksFor, h, hw]
    | some m =>
      have hasks (j : Nat) : s.asksFor j ↔ j < 1 + m.kinds.length := by
        simp only [State.asksFor, h, hw, Option.some.injEq, exists_and_left, exists_eq_left']
        omega
      simp only [State.fetchReads_of_known h hw, List.mem_flatMap, List.mem_range, hasks]

theorem State.mem_pushAccess {s : State} {v : Word} {x : Transaction} :
    x ∈ s.pushAccess v ↔ s.sp < s.cfg.len ∧ x = .write s.sp v := by
  unfold State.pushAccess
  split <;> simp_all

theorem State.mem_popAccess {s : State} {x : Transaction} :
    x ∈ s.popAccess ↔ s.cfg.stackBase < s.sp ∧ ∃ w, s.memRead (s.sp - 1 : Nat) = some w ∧ x = .read (s.sp - 1) w := by
  unfold State.popAccess
  cases s.memRead (s.sp - 1 : Nat) <;> split <;> simp_all

theorem State.mem_transactions {s : State} {x : Transaction} :
    x ∈ s.transactions ↔
      s.status = .running ∧ (x ∈ s.fetchReads ∨ ∃ i, s.fetch = .ok i ∧ x ∈ executeAccess i s) := by
  unfold State.transactions
  cases s.status <;> cases s.fetch <;> simp

/-- The writes of stage 6 are the pushes. -/
theorem write_mem_executeAccess {i : Instr} {s : State} {a : Nat} {w : Word} :
    .write a w ∈ executeAccess i s ↔ a = s.sp ∧ Pushes s i w := by
  constructor
  · intro h
    cases i with
    | call addr =>
      obtain ⟨hsp, hx⟩ := State.mem_pushAccess.1 h
      cases hx
      exact ⟨rfl, .call addr hsp⟩
    | push r =>
      rw [executeAccess] at h
      cases hq : Reg.ofWord? r with
      | none => simp [hq] at h
      | some q =>
        simp only [hq, State.mem_pushAccess] at h
        obtain ⟨hsp, hx⟩ := h
        cases hx
        exact ⟨rfl, .push r q ((Reg.ofWord?_eq_some r q).1 hq) hsp⟩
    | ret =>
      obtain ⟨_, _, _, hx⟩ := State.mem_popAccess.1 h
      cases hx
    | pop r =>
      rw [executeAccess] at h
      cases hq : Reg.ofWord? r <;> simp [hq, State.mem_popAccess] at h
    | print r =>
      rw [executeAccess] at h
      cases hq : Reg.ofWord? r <;> simp [hq] at h
    | cmp | jne | set | copy | add | dec | exit => simp [executeAccess] at h
  · rintro ⟨rfl, hw⟩
    cases hw with
    | call addr hsp => exact State.mem_pushAccess.2 ⟨hsp, rfl⟩
    | push r q hq hsp =>
      simp only [executeAccess, (Reg.ofWord?_eq_some r q).2 hq]
      exact State.mem_pushAccess.2 ⟨hsp, rfl⟩

/-- The read of stage 6 is the pop's. -/
theorem read_mem_executeAccess {i : Instr} {s : State} {a : Nat} {w : Word}
    (h : .read a w ∈ executeAccess i s) : .read a w ∈ s.popAccess := by
  cases i with
  | ret => exact h
  | pop r =>
    rw [executeAccess] at h
    cases hq : Reg.ofWord? r with
    | none => simp [hq] at h
    | some q => simpa only [hq] using h
  | call addr =>
    obtain ⟨_, hx⟩ := State.mem_pushAccess.1 h
    cases hx
  | push r =>
    rw [executeAccess] at h
    cases hq : Reg.ofWord? r <;> simp [hq, State.mem_pushAccess] at h
  | print r =>
    rw [executeAccess] at h
    cases hq : Reg.ofWord? r <;> simp [hq] at h
  | cmp | jne | set | copy | add | dec | exit => simp [executeAccess] at h

/-- The write of a step is the push of its instruction. -/
theorem write_mem_transactions {s : State} {a : Nat} {w : Word} :
    .write a w ∈ s.transactions ↔ s.status = .running ∧ a = s.sp ∧ ∃ i, s.fetch = .ok i ∧ Pushes s i w := by
  rw [State.mem_transactions]
  constructor
  · rintro ⟨hs, hx | ⟨i, hi, hx⟩⟩
    · obtain ⟨_, _, hx⟩ := State.mem_fetchReads.1 hx
      obtain ⟨_, _, e⟩ := State.mem_fetchRead.1 hx
      cases e
    · obtain ⟨ha, hw⟩ := write_mem_executeAccess.1 hx
      exact ⟨hs, ha, i, hi, hw⟩
  · rintro ⟨hs, ha, i, hi, hw⟩
    exact ⟨hs, .inr ⟨i, hi, write_mem_executeAccess.2 ⟨ha, hw⟩⟩⟩

/-- Every read of a step is a `MemRead` that is defined (R32, R90). -/
theorem read_mem_transactions {s : State} {a : Nat} {w : Word} (h : .read a w ∈ s.transactions) :
    s.memRead a = some w := by
  obtain ⟨_, hx | ⟨i, _, hx⟩⟩ := State.mem_transactions.1 h
  · obtain ⟨j, _, hx⟩ := State.mem_fetchReads.1 hx
    obtain ⟨w', hj, e⟩ := State.mem_fetchRead.1 hx
    cases e
    have hip := ((s.memRead_eq_some _ _).1 hj).1
    rwa [Int.toNat_of_nonneg hip.1]
  · obtain ⟨_, w', hread, e⟩ := State.mem_popAccess.1 (read_mem_executeAccess hx)
    cases e
    exact hread

/-! ### Written words along a run (R37, R42) -/

/-- The word written is the one the memory then holds. -/
theorem step_read_of_write {s t : State} {a : Nat} {w : Word} (h : step s = .next t)
    (hw : .write a w ∈ s.transactions) : Memory.read t.mem a = w := by
  obtain ⟨hs, rfl, i, hi, hpush⟩ := write_mem_transactions.1 hw
  obtain ⟨n, hexec⟩ := hpush.exec_eq
  rw [step_of_fetch_ok hs hi, hexec] at h
  cases h
  exact Memory.read_write_same s.mem s.sp w

/-- No word changes without a write to it. -/
theorem step_read_of_no_write {s t : State} {a : Nat} (h : step s = .next t)
    (hno : ∀ w, .write a w ∉ s.transactions) : Memory.read t.mem a = Memory.read s.mem a := by
  by_contra hne
  obtain ⟨ha, hs, i, w, hi, hw⟩ := step_read_ne h hne
  exact hno w (write_mem_transactions.2 ⟨hs, ha, i, hi, hw⟩)

/-- A push to the index that `ip` moves to is the next word fetched (R40). -/
theorem fetchWord_zero_of_push {s : State} {n : Nat} (w : Word) (hip : s.ip + n = s.sp) (hsp : s.sp < s.cfg.len) :
    ((s.push w).advance n).fetchWord 0 = some w := by
  refine (State.memRead_eq_some _ _ w).2 ?_
  simp only [State.advance_ip, State.push_ip, State.advance_cfg, State.push_cfg, State.advance_mem, State.push_mem,
    hip, Int.natCast_zero, add_zero, Int.toNat_natCast, Memory.read_write_same, and_true]
  omega

/-- A word that no step of a run writes reads at its end as at its start. -/
theorem run_read_of_no_write {a k : Nat} {s t : State} (h : runsTo k s t)
    (hno : ∀ (m : Nat) (x : State) (w : Word), m < k → runsTo m s x → .write a w ∉ x.transactions) :
    Memory.read t.mem a = Memory.read s.mem a := by
  induction k generalizing s with
  | zero =>
    cases (run_zero s).symm.trans h
    rfl
  | succ k ih =>
    obtain ⟨s', hstep, hrun⟩ := run_succ_eq_next h
    have htail : Memory.read t.mem a = Memory.read s'.mem a :=
      ih hrun fun m x w hm hx => hno (m + 1) x w (by omega) ((run_succ_of_next hstep).trans hx)
    have hhead : Memory.read s'.mem a = Memory.read s.mem a :=
      step_read_of_no_write hstep fun w => hno 0 s w (by omega) (run_zero s)
    exact htail.trans hhead

/-! ### The code region (R38) -/

/-- The words below `STACK_BASE` read as in the given memory. -/
def State.codeReadsAs (mem : Memory) (s : State) : Prop :=
  ∀ a : Nat, a < s.cfg.stackBase → Memory.read s.mem a = Memory.read mem a

/-- `sp` being at `STACK_BASE` or above, a step does not touch the code region. -/
theorem step_keeps_codeReadsAs {mem : Memory} {s t : State} (hstack : s.stackOk) (hs : s.codeReadsAs mem)
    (h : step s = .next t) : t.codeReadsAs mem := by
  intro a ha
  rw [step_cfg_eq h] at ha
  have hsp := hstack.1
  exact (step_read_eq h (.inl (by omega))).trans (hs a ha)

/-- `sp` in its region and the code region as loaded: kept along every run from reset release. -/
theorem reached_stackOk_and_codeReadsAs {cfg : Config} {mem : Memory} {k : Nat} {t : State}
    (h : runsTo k (State.release cfg mem) t) : t.stackOk ∧ t.codeReadsAs mem :=
  run_induction (P := fun u => u.stackOk ∧ u.codeReadsAs mem)
    (fun _ _ hu hstep => ⟨step_keeps_stackOk hu.1 hstep, step_keeps_codeReadsAs hu.1 hu.2 hstep⟩)
    k _ t ⟨release_stackOk cfg mem, fun _ _ => rfl⟩ h

/-! ### States that differ in the free part of the stack only (R39) -/

theorem sameButFreeStack.cfg_eq {s t : State} (h : sameButFreeStack s t) : t.cfg = s.cfg := by rw [h.1]
theorem sameButFreeStack.ip_eq {s t : State} (h : sameButFreeStack s t) : t.ip = s.ip := by rw [h.1]
theorem sameButFreeStack.sp_eq {s t : State} (h : sameButFreeStack s t) : t.sp = s.sp := by rw [h.1]
theorem sameButFreeStack.regs_eq {s t : State} (h : sameButFreeStack s t) : t.regs = s.regs := by rw [h.1]
theorem sameButFreeStack.status_eq {s t : State} (h : sameButFreeStack s t) : t.status = s.status := by
  rw [h.1]

/-- An update that does not look at the memory, and does not move `sp` up. -/
abbrev ignoresMem (f : State → State) : Prop :=
  ∀ (u : State) (m : Memory), f { u with mem := m } = { f u with mem := m } ∧ (f u).sp ≤ u.sp

theorem sameButFreeStack.map {s t : State} (h : sameButFreeStack s t) {f : State → State} (hf : ignoresMem f) :
    sameButFreeStack (f s) (f t) := by
  obtain ⟨heq, hread⟩ := h
  have hft : f t = { f s with mem := t.mem } := (congrArg f heq).trans (hf s t.mem).1
  have hfs : f s = { f s with mem := s.mem } := (hf s s.mem).1
  have hmem : (f s).mem = s.mem := by rw [hfs]
  refine ⟨by rw [hft], fun a ha => ?_⟩
  rw [hft, hmem]
  exact hread a (ha.trans_le (hf s s.mem).2)

theorem sameButFreeStack.push {s t : State} (h : sameButFreeStack s t) (w : Word) :
    sameButFreeStack (s.push w) (t.push w) := by
  refine ⟨by rw [h.1]; rfl, fun a ha => ?_⟩
  rw [State.push_sp] at ha
  rw [State.push_mem, State.push_mem, h.sp_eq, Memory.read_write, Memory.read_write]
  split
  · rfl
  · exact h.2 a (by omega)

/-- The second outcome follows the first: where that is a next state, so is this, and the two differ in the free part
of the stack only. -/
def freeStackFollows (o o' : Result) : Prop :=
  ∀ s' : State, o = .next s' → ∃ t' : State, o' = .next t' ∧ sameButFreeStack s' t'

theorem freeStackFollows_next {s t : State} (h : sameButFreeStack s t) : freeStackFollows (.next s) (.next t) := by
  intro s' hs'
  cases hs'
  exact ⟨t, rfl, h⟩

section
variable {s t : State} (h : sameButFreeStack s t)
include h

theorem sameButFreeStack.follows_map {f : State → State} (hf : ignoresMem f) :
    freeStackFollows (.next (f s)) (.next (f t)) :=
  freeStackFollows_next (h.map hf)

theorem sameButFreeStack.follows_raise (f : FaultCode) (a b : Int) :
    freeStackFollows (.next (s.raise f a b)) (.next (t.raise f a b)) :=
  h.follows_map (f := fun u => u.raise f a b) fun _ _ => ⟨rfl, le_rfl⟩

theorem sameButFreeStack.follows_regThen {w : Word} {k k' : Reg → Result} (hk : ∀ q, freeStackFollows (k q) (k' q)) :
    freeStackFollows (regThen w s k) (regThen w t k') := by
  by_cases hw : badIndex w
  · rw [regThen_of_bad w s k hw, regThen_of_bad w t k' hw, h.ip_eq]
    exact h.follows_raise _ _ _
  · obtain ⟨q, hq⟩ := exists_reg_of_not_badIndex hw
    rw [regThen_of_num w s k q hq, regThen_of_num w t k' q hq]
    exact hk q

/-- A push writes the same word to the same slot, which the two then share. -/
theorem sameButFreeStack.follows_pushThen {w : Word} {k : State → Result}
    (hk : ∀ u v, sameButFreeStack u v → freeStackFollows (k u) (k v)) :
    freeStackFollows (pushThen w s k) (pushThen w t k) := by
  by_cases hsp : s.sp < s.cfg.len
  · rw [pushThen_of_lt w s k hsp, pushThen_of_lt w t k (by rwa [h.sp_eq, h.cfg_eq])]
    exact hk _ _ (h.push w)
  · have hle : s.cfg.len ≤ s.sp := by omega
    rw [pushThen_of_le w s k hle, pushThen_of_le w t k (by rwa [h.sp_eq, h.cfg_eq]), h.sp_eq, h.ip_eq]
    exact h.follows_raise _ _ _

/-- A pop reads the word below `sp`, which the two share. -/
theorem sameButFreeStack.follows_popThen {k : Word → State → Result}
    (hk : ∀ w u v, sameButFreeStack u v → freeStackFollows (k w u) (k w v)) :
    freeStackFollows (popThen s k) (popThen t k) := by
  rcases popThen_cases s k with ⟨hle, e⟩ | ⟨hlt, hlen, e⟩ | ⟨_, _, e⟩ <;> rw [e]
  · rw [popThen_of_le t k (by rwa [h.sp_eq, h.cfg_eq]), h.sp_eq, h.ip_eq]
    exact h.follows_raise _ _ _
  · rw [popThen_of_lt t k (by rwa [h.sp_eq, h.cfg_eq]) (by rwa [h.sp_eq, h.cfg_eq]), h.sp_eq, h.2 _ (by omega)]
    exact hk _ _ _ (h.map (f := State.dropTop) fun u _ => ⟨rfl, Nat.sub_le u.sp 1⟩)
  · exact nofun

/-- No instruction's execution reads a word at `sp` or above. -/
theorem sameButFreeStack.follows_exec (i : Instr) : freeStackFollows (exec i s) (exec i t) := by
  cases i with
  | call addr =>
    rw [exec_call, exec_call, h.ip_eq]
    exact h.follows_pushThen fun u v huv =>
      huv.follows_map (f := fun u => u.jump (absoluteTarget addr)) fun _ _ => ⟨rfl, le_rfl⟩
  | ret =>
    exact h.follows_popThen fun w u v huv =>
      huv.follows_map (f := fun u => u.jump (absoluteTarget w)) fun _ _ => ⟨rfl, le_rfl⟩
  | push r =>
    rw [exec_push, exec_push, h.regs_eq]
    exact h.follows_regThen fun q => h.follows_pushThen fun u v huv =>
      huv.follows_map (f := fun u => u.advance 2) fun _ _ => ⟨rfl, le_rfl⟩
  | pop r =>
    exact h.follows_regThen fun q => h.follows_popThen fun w u v huv =>
      huv.follows_map (f := fun u => (u.writeReg q w).advance 2) fun _ _ => ⟨rfl, le_rfl⟩
  | cmp r1 c =>
    exact h.follows_regThen fun q =>
      h.follows_map (f := fun u => (u.setFlag (compareFlag (u.regs.read q) c)).advance 3) fun _ _ => ⟨rfl, le_rfl⟩
  | jne offset =>
    refine h.follows_map (f := fun u => if jneTaken u.flag then u.jump (relativeTarget u.ip offset) else u.advance 2)
      fun u m => ?_
    cases hf : jneTaken u.flag <;> simp only [hf] <;> exact ⟨rfl, le_rfl⟩
  | set r c =>
    exact h.follows_regThen fun q =>
      h.follows_map (f := fun u => (u.writeReg q c).advance 3) fun _ _ => ⟨rfl, le_rfl⟩
  | copy rSrc rDst =>
    exact h.follows_regThen fun a => h.follows_regThen fun d =>
      h.follows_map (f := fun u => (u.writeReg d (u.regs.read a)).advance 3) fun _ _ => ⟨rfl, le_rfl⟩
  | add rDst rSrc =>
    exact h.follows_regThen fun d => h.follows_regThen fun a =>
      h.follows_map (f := fun u => (u.writeReg d (wrap32 ((u.regs.read d).toInt + (u.regs.read a).toInt))).advance 3)
        fun _ _ => ⟨rfl, le_rfl⟩
  | dec r =>
    exact h.follows_regThen fun q =>
      h.follows_map (f := fun u => (u.writeReg q (wrap32 ((u.regs.read q).toInt - 1))).advance 2)
        fun _ _ => ⟨rfl, le_rfl⟩
  | print r =>
    exact h.follows_regThen fun q =>
      h.follows_map (f := fun u => (u.emit (u.regs.read q)).advance 2) fun _ _ => ⟨rfl, le_rfl⟩
  | exit => exact h.follows_map (f := State.halt) fun _ _ => ⟨rfl, le_rfl⟩

/-- A word that is asked for lies below `sp`, and there the two agree, or is in neither memory. -/
theorem sameButFreeStack.fetchWord_eq (hbelow : s.fetchesBelow s.sp) {j : Nat} (hj : s.asksFor j) :
    s.fetchWord j = t.fetchWord j := by
  rw [State.fetchWord, State.fetchWord, h.ip_eq]
  by_cases hrange : 0 ≤ s.ip + j ∧ s.ip + j < s.cfg.len
  · have hword : s.fetchWord j = some (Memory.read s.mem (s.ip + j).toNat) := (s.memRead_eq_some _ _).2 ⟨hrange, rfl⟩
    have hlt : (s.ip + j).toNat < s.sp := 
      hbelow _ _ (State.mem_fetchReads.2 ⟨j, hj, State.mem_fetchRead.2 ⟨_, hword, rfl⟩⟩)
    exact (State.memRead_congr h.cfg_eq fun _ => h.2 _ hlt).symm
  · rw [(s.memRead_eq_none _).2 hrange, (t.memRead_eq_none _).2 (by rwa [h.cfg_eq])]

theorem sameButFreeStack.fetch_eq (hbelow : s.fetchesBelow s.sp) : t.fetch = s.fetch := by
  unfold State.fetch
  rw [h.cfg_eq]
  exact (decodeWith_congr (h.fetchWord_eq hbelow (.inl rfl)) fun w m hw hm j _ hj =>
    h.fetchWord_eq hbelow (.inr ⟨w, m, hw, hm, hj⟩)).symm

theorem sameButFreeStack.follows_step (hbelow : s.fetchesBelow s.sp) : freeStackFollows (step s) (step t) := by
  by_cases hs : s.status = .running
  · have ht : t.status = .running := h.status_eq.trans hs
    have hfetch := h.fetch_eq hbelow
    cases hf : s.fetch with
    | ok i =>
      rw [step_of_fetch_ok hs hf, step_of_fetch_ok ht (hfetch.trans hf)]
      exact h.follows_exec i
    | error e =>
      rw [step_of_fetch_error hs hf, step_of_fetch_error ht (hfetch.trans hf)]
      exact h.follows_map (f := fun u => u.raiseFetch e) fun _ _ => by cases e <;> exact ⟨rfl, le_rfl⟩
  · rw [step_of_not_running hs, step_of_not_running (h.status_eq ▸ hs)]
    exact freeStackFollows_next h

end

end Sys2Proof.Machine
end

section
/-! The statements on the memory (`spec/20_memory.md`), settled. -/

namespace Sys2Proof.Proofs

open Sys2Proof.Machine

/-! ## Reads and writes -/

/-- Settles O45: read after write in the memory, and the range check of `MemRead`. -/
theorem memReadAfterMemWrite : Obligations.MemReadAfterMemWrite :=
  fun s _ w => ⟨s.memRead_memWrite_same w, fun _ => s.memRead_memWrite_other w, s.memRead_isSome⟩

/-- Settles O29: the range check of the pop's read fails, the register index having passed. -/
theorem popBeyondMemoryStops : Obligations.PopBeyondMemoryStops := by
  intro s hbase hlen
  refine ⟨by rw [exec_ret, popThen_of_outside s _ hbase hlen], fun r hr => ?_⟩
  obtain ⟨q, hq⟩ := exists_reg_of_not_badIndex hr
  rw [exec_pop, regThen_of_num r s _ q hq, popThen_of_outside s _ hbase hlen]

/-- Settles O27: a push is checked against `LEN`, and a pop let through above `STACK_BASE` is at most at `LEN`. -/
theorem stepAlwaysAnswersNextState : Obligations.StepAlwaysAnswersNextState :=
  fun _ => step_answers

/-- Settles O57: a read is a `MemRead` that is defined, a write is a push below `LEN`. -/
theorem portAddressesAreValid : Obligations.PortAddressesAreValid := by
  refine fun s => ⟨fun a w h => ?_, fun a w h => ?_⟩
  · obtain ⟨⟨_, hlt⟩, hread⟩ := (s.memRead_eq_some a w).1 (read_mem_transactions h)
    exact ⟨by omega, hread⟩
  · obtain ⟨_, rfl, _, _, hpush⟩ := write_mem_transactions.1 h
    exact ⟨hpush.sp_lt, rfl⟩

/-! ## What a step writes -/

/-- Settles O41: of the effects only a push's touches the memory, and a fault leaves it. -/
theorem memoryChangesOnlyByPush : Obligations.MemoryChangesOnlyByPush := by
  intro s t a _ h hne
  obtain ⟨ha, _, i, w, hi, hw⟩ := step_read_ne h hne
  exact ⟨ha, hw.sp_lt, i, hi, hw.opcode⟩

/-- Settles O34: a push writes in canonical form and below `LEN`, and nothing else writes. -/
theorem stepKeepsMemoryCanonical : Obligations.StepKeepsMemoryCanonical :=
  fun _ _ h => ⟨fun hs => step_keeps_wf hs h, fun hs => step_keeps_memOk hs h, fun _ ha => step_read_eq h (.inr ha)⟩

/-- Settles O46: a write is at `sp`, and `sp` is in its region in every reached state. -/
theorem codeRegionIsNeverWritten : Obligations.CodeRegionIsNeverWritten := by
  intro cfg mem k t _ hrun
  have hcfg : t.cfg = cfg := run_cfg_eq hrun
  obtain ⟨hstack, hcode⟩ := reached_stackOk_and_codeReadsAs hrun
  rw [← hcfg]
  refine ⟨hcode, fun a w h => ?_⟩
  obtain ⟨_, rfl, _, _, hpush⟩ := write_mem_transactions.1 h
  exact ⟨hstack.1, hpush.sp_lt⟩

/-- Settles O51: the word stands in memory until a write to its index, and a fetch reads the memory as it stands; the
second part is a PUSH to its own next index, and an EXIT fetched from there. -/
theorem storedWordIsFetchedAtOnce : Obligations.StoredWordIsFetchedAtOnce := by
  refine ⟨fun s v u k a w hstep hw hrun hno j hj => ?_, fun s q r hs hT hq hat hip hsp => ?_⟩
  · have hread : Memory.read u.mem a = w := (run_read_of_no_write hrun hno).trans (step_read_of_write hstep hw)
    have hlen : a < u.cfg.len := by
      obtain ⟨_, rfl, _, _, hpush⟩ := write_mem_transactions.1 hw
      rw [run_cfg_eq hrun, step_cfg_eq hstep]
      exact hpush.sp_lt
    rw [State.fetchWord, hj, State.memRead_nat u a hlen, hread]
  · have hfetch : s.fetch = .ok (.push r) := State.fetch_of_holdsAtIp hT hat
    have hstep : step s = .next ((s.push (s.regs.read q)).advance 2) := by
      rw [step_of_fetch_ok hs hfetch, exec_push, regThen_of_num r s _ q hq, pushThen_of_lt _ s _ hsp]
    have hword : ((s.push (s.regs.read q)).advance 2).fetchWord 0 = some (s.regs.read q) :=
      fetchWord_zero_of_push _ hip hsp
    refine ⟨_, hstep, rfl, rfl, hword, fun hexit => ?_⟩
    have hnext : step ((s.push (s.regs.read q)).advance 2) = .next ((s.push (s.regs.read q)).advance 2).halt :=
      step_of_fetch_ok (s := (s.push (s.regs.read q)).advance 2) hs
        (State.fetch_of_exit_tag hT (hword.trans (congrArg some hexit)))
    exact ⟨_, (run_succ_of_next hstep).trans (run_succ_of_next hnext), rfl, rfl, rfl⟩

/-- Settles O52: every stage of the step reads below `sp` only, and writes the same words to both states. -/
theorem freeStackContentsDoNotMatter : Obligations.FreeStackContentsDoNotMatter :=
  fun _ _ s' h _ hbelow hstep => h.follows_step hbelow s' hstep

end Sys2Proof.Proofs
end

section
/-! SUPPORT. The decoder on a list of words (R44 to R47, R56, R60): it answers an instruction exactly where the
instruction's encoding stands at the head of the list. -/

namespace Sys2Proof

@[simp] theorem encode_length (T : Tags) (i : Instr) : (encode T i).length = i.size := by
  rw [encode, List.length_cons, Instr.size, Nat.add_comm]

theorem Instr.size_eq (i : Instr) : i.size = 1 + i.opcode.kinds.length := by
  rw [Instr.size, Instr.operands_length]

/-- What the operands of an opcode are read as has that opcode, and its operands are the words after the tag, in
order (R45, R52). -/
theorem readOperands_eq_ok {m : Opcode} {get : Nat → Option Word} {i : Instr} (h : readOperands m get = .ok i) :
    i.opcode = m ∧ ∀ j w, i.operands[j]? = some w → get (j + 1) = some w := by
  cases m with
  | ret | exit =>
    cases h
    exact ⟨rfl, nofun⟩
  | call | jne | push | pop | dec | print =>
    obtain ⟨a, ha, rfl⟩ := readOne_eq_ok.1 h
    refine ⟨rfl, fun j w hj => ?_⟩
    match j, hj with
    | 0, rfl => exact ha
  | cmp | set | copy | add =>
    obtain ⟨a, b, ha, hb, rfl⟩ := readTwo_eq_ok.1 h
    refine ⟨rfl, fun j w hj => ?_⟩
    match j, hj with
    | 0, rfl => exact ha
    | 1, rfl => exact hb

/-- The converse of `decodeWith_of_encode`, under every tag map: a reader that decodes to an instruction gives its
encoding (R56, R60). -/
theorem encode_of_decodeWith {T : Tags} {get : Nat → Option Word} {i : Instr} (h : decodeWith T get = .ok i) :
    ∀ j w, (encode T i)[j]? = some w → get j = some w := by
  obtain ⟨w, m, hw, hm, hop⟩ := decodeWith_eq_ok h
  obtain ⟨rfl, hwords⟩ := readOperands_eq_ok hop
  rintro (_ | j) v hv
  · cases hv
    rw [hw, Tags.tagOf_of_opcodeOf hm]
  · exact hwords j v hv

/-- The opcode of a decoded instruction is the one its tag word is read as (R50). -/
theorem opcode_of_decodeWith {T : Tags} {get : Nat → Option Word} {i : Instr} (h : decodeWith T get = .ok i) :
    ∃ w, get 0 = some w ∧ T.opcodeOf w = some i.opcode := by
  obtain ⟨w, m, hw, hm, hop⟩ := decodeWith_eq_ok h
  obtain ⟨rfl, _⟩ := readOperands_eq_ok hop
  exact ⟨w, hw, hm⟩

theorem decode_eq_ok {T : Tags} {ws rest : List Word} {i : Instr} :
    decode T ws = .ok (i, rest) ↔ decodeWith T (fun j => ws[j]?) = .ok i ∧ ws.drop i.size = rest := by
  unfold decode
  cases decodeWith T (fun j => ws[j]?) with
  | error e => simp
  | ok i' =>
    simp only [Except.ok.injEq, Prod.mk.injEq]
    exact and_congr_right fun hi => by rw [hi]

/-- An instruction's encoding at the head of a list of words is decoded to it, and the words after it are left. -/
theorem decode_encode_append {T : Tags} (hT : T.admissible) (i : Instr) (rest : List Word) :
    decode T (encode T i ++ rest) = .ok (i, rest) := by
  refine decode_eq_ok.2 ⟨decodeWith_of_encode hT fun j w hj => ?_, List.drop_left' (encode_length T i)⟩
  exact List.getElem?_append_left (List.getElem?_eq_some_iff.1 hj).1 ▸ hj

/-- A list of words that decodes to an instruction is its encoding and the words left. -/
theorem encode_append_of_decode {T : Tags} {ws rest : List Word} {i : Instr} (h : decode T ws = .ok (i, rest)) :
    encode T i ++ rest = ws := by
  obtain ⟨hi, rfl⟩ := decode_eq_ok.1 h
  have hprefix : encode T i <+: ws :=
    List.prefix_iff_getElem?.2 fun j hj => encode_of_decodeWith hi j _ (List.getElem?_eq_getElem hj)
  rw [← encode_length T i]
  exact (List.prefix_append_drop hprefix).symm

end Sys2Proof
end

section
/-! The statements on the encoding (`spec/30_encoding.md`), settled. -/

namespace Sys2Proof.Proofs

open Sys2Proof.Machine

/-- Settles O1: the encoding at the head of the list is what the decoder's reader gives, so it reads the tag, then the
operands of the tag's format. -/
theorem decodeReadsBackEncode : Obligations.DecodeReadsBackEncode :=
  fun _ i rest hT => decode_encode_append hT i rest

/-- Settles O2: the tag and each operand word stand in the list where the encoding has them, and the rest is what is
behind them. -/
theorem encodeReadsBackDecode : Obligations.EncodeReadsBackDecode :=
  fun _ _ _ _ => encode_append_of_decode

/-- Settles O3: the decoder goes by the opcode of the tag word, and by O2 the words taken are an encoding of that
opcode. -/
theorem lengthFollowsFromTag : Obligations.LengthFollowsFromTag := by
  intro T w ws rest i m hm h
  have hopcode : i.opcode = m := by
    obtain ⟨w', hw', hi⟩ := opcode_of_decodeWith (decode_eq_ok.1 h).1
    cases hw'
    exact Option.some.inj (hi.symm.trans hm)
  refine ⟨hopcode, hopcode ▸ i.size_eq, ?_⟩
  rw [← encode_append_of_decode h, List.length_append, encode_length]

/-- Settles O6: the words at `ip` are what the fetch reads, and a step runs what it fetched. -/
theorem stepRunsInstructionInMemory : Obligations.StepRunsInstructionInMemory :=
  fun _ _ hs hT hat => step_of_fetch_ok hs (State.fetch_of_holdsAtIp hT hat)

/-- Settles O4: the accepted words are encodings under the default tags, read back by O1; the three refusals are
evaluated. -/
theorem specWordsDecode : Obligations.SpecWordsDecode :=
  have readsBack (i : Instr) (rest : List Word) := decode_encode_append Tags.default_admissible i rest
  ⟨readsBack (.set 0 5) [], readsBack (.call 8) [10], readsBack (.copy 0 2) [], readsBack (.add 1 2) [1],
    readsBack (.jne (-7)) [11], readsBack .exit [], by decide, by decide, by decide⟩

end Sys2Proof.Proofs
end

section
/-! SUPPORT. The fault that is due in each stage of the step (R59 to R63), computed from what was fetched: it is the
first of R65's list, it is what the step raises, and where none is due the instruction has its effect (R64). -/

namespace Sys2Proof

/-! ### Why operands fail, with the reads that were made (R61) -/

theorem readOne_missing {get : Nat → Option Word} {build : Word → Instr} {e : DecodeError}
    (h : readOne get build = .error e) : e = .missing 1 ∧ get 1 = none := by
  unfold readOne at h
  split at h <;> cases h
  exact ⟨rfl, ‹_›⟩

theorem readTwo_missing {get : Nat → Option Word} {build : Word → Word → Instr} {e : DecodeError}
    (h : readTwo get build = .error e) :
    (e = .missing 1 ∧ get 1 = none) ∨ (e = .missing 2 ∧ get 1 ≠ none ∧ get 2 = none) := by
  unfold readTwo at h
  split at h
  · cases h
    exact .inl ⟨rfl, ‹_›⟩
  · next hget =>
    split at h <;> cases h
    exact .inr ⟨rfl, by simp [hget], ‹_›⟩

/-- It is the first word of the opcode's format that is not there. -/
theorem readOperands_missing {m : Opcode} {get : Nat → Option Word} {e : DecodeError}
    (h : readOperands m get = .error e) :
    (e = .missing 1 ∧ 1 ≤ m.kinds.length ∧ get 1 = none) ∨
    (e = .missing 2 ∧ 2 ≤ m.kinds.length ∧ get 1 ≠ none ∧ get 2 = none) := by
  cases m with
  | ret | exit => cases h
  | call | jne | push | pop | dec | print =>
    obtain ⟨he, hget⟩ := readOne_missing h
    exact .inl ⟨he, le_rfl, hget⟩
  | cmp | set | copy | add =>
    rcases readTwo_missing h with ⟨he, hget⟩ | ⟨he, hget⟩
    · exact .inl ⟨he, by decide, hget⟩
    · exact .inr ⟨he, le_rfl, hget⟩

end Sys2Proof

namespace Sys2Proof.Machine

/-! ### The fault due in stages 4 and 5 -/

/-- Stage 5 (R63): the stack fault that is due for an opcode. -/
def State.stackFault (s : State) : Opcode → Option FaultRecord
  | .call | .push => if s.cfg.len ≤ s.sp then some ⟨.stackOverflow, s.sp, s.ip⟩ else none
  | .ret | .pop => if s.sp ≤ s.cfg.stackBase then some ⟨.stackUnderflow, s.sp, s.ip⟩ else none
  | .cmp | .jne | .set | .copy | .add | .dec | .print | .exit => none

/-- Stage 4 (R62) over the operands in order, before a later stage in which the given fault is due. -/
def State.operandFault (s : State) (later : Option FaultRecord) : List (OperandKind × Word) → Option FaultRecord
  | [] => later
  | (.registerIndex, w) :: ps =>
    if badIndex w then some ⟨.registerIndex, w.toInt, s.ip⟩ else s.operandFault later ps
  | (.constant, _) :: ps | (.absoluteAddress, _) :: ps | (.relativeOffset, _) :: ps => s.operandFault later ps

/-- The fault due in stages 4 and 5: the register indices come before the stack bound (R65). -/
def State.checkFault (s : State) (i : Instr) : Option FaultRecord :=
  s.operandFault (s.stackFault i.opcode) (i.opcode.kinds.zip i.operands)

/-- Stage 4 faults at the first register-index operand that is out of range. -/
theorem State.operandFault_eq (s : State) (later : Option FaultRecord) (ps : List (OperandKind × Word)) :
    s.operandFault later ps =
      ((ps.find? fun p => decide (p.1 = .registerIndex ∧ badIndex p.2)).map
        fun p => ⟨.registerIndex, p.2.toInt, s.ip⟩).or later := by
  induction ps with
  | nil => rfl
  | cons p ps ih =>
    obtain ⟨kind, w⟩ := p
    cases kind with
    | registerIndex => by_cases hw : badIndex w <;> simp [State.operandFault, hw, ih]
    | constant | absoluteAddress | relativeOffset => simp [State.operandFault, ih]

theorem State.stackFault_fcode {s : State} {m : Opcode} {f : FaultRecord} (h : s.stackFault m = some f) :
    f.fcode = .stackOverflow ∨ f.fcode = .stackUnderflow := by
  have of_if {c : Prop} [Decidable c] {g : FaultRecord} (h : (if c then some g else none) = some f) : f = g := by
    split at h <;> cases h
    rfl
  cases m with
  | call | push => exact .inl (by rw [of_if h])
  | ret | pop => exact .inr (by rw [of_if h])
  | cmp | jne | set | copy | add | dec | print | exit => cases h

/-- Decoding is over when the checks begin. -/
theorem State.checkFault_fcode_ne {s : State} {i : Instr} {f : FaultRecord} (h : s.checkFault i = some f) :
    f.fcode ≠ .decodeFault := by
  rw [State.checkFault, State.operandFault_eq, Option.or_eq_some_iff, Option.map_eq_some_iff] at h
  rcases h with ⟨_, _, rfl⟩ | ⟨_, h⟩
  · nofun
  · rcases State.stackFault_fcode h with hf | hf <;> rw [hf] <;> nofun

theorem not_badIndex_of_registerIndexOk {w : Word} (h : registerIndexOk w = true) : ¬ badIndex w := by
  simp only [registerIndexOk, Bool.and_eq_true, decide_eq_true_eq] at h
  unfold badIndex
  omega

/-- A well-formed instruction passes stage 4. -/
theorem State.checkFault_of_wellFormed (s : State) {i : Instr} (h : i.wellFormed = true) :
    s.checkFault i = s.stackFault i.opcode := by
  cases i with
  | call | ret | jne | exit => rfl
  | cmp r | push r | pop r | set r | dec r | print r => exact if_neg (not_badIndex_of_registerIndexOk h)
  | copy r r' | add r r' =>
    obtain ⟨hr, hr'⟩ := (Bool.and_eq_true _ _).mp h
    exact (if_neg (not_badIndex_of_registerIndexOk hr)).trans (if_neg (not_badIndex_of_registerIndexOk hr'))

/-! ### Executing is checking, then the effect -/

/-- The outcome is the fault that is due; where none is due, a next state that it answers is in `P`. -/
def Checked (s : State) (due : Option FaultRecord) (P : State → Prop) (o : Result) : Prop :=
  match due with
  | some f => o = .next (s.raise f.fcode f.fa f.fb)
  | none => ∀ t : State, o = .next t → P t

theorem Checked.next {s u : State} {P : State → Prop} (h : P u) : Checked s none P (.next u) := by
  intro t ht
  cases ht
  exact h

theorem Checked.regThen {w : Word} {s : State} {k : Reg → Result} {due : Option FaultRecord} {P : State → Prop}
    (hk : ∀ q : Reg, w.toInt = q.num → Checked s due P (k q)) :
    Checked s (if badIndex w then some ⟨.registerIndex, w.toInt, s.ip⟩ else due) P (regThen w s k) := by
  split
  · exact regThen_of_bad w s k ‹_›
  · obtain ⟨q, hq⟩ := exists_reg_of_not_badIndex ‹_›
    rw [regThen_of_num w s k q hq]
    exact hk q hq

theorem Checked.pushThen {w : Word} {s : State} {k : State → Result} {P : State → Prop}
    (hk : s.sp < s.cfg.len → Checked s none P (k (s.push w))) :
    Checked s (if s.cfg.len ≤ s.sp then some ⟨.stackOverflow, s.sp, s.ip⟩ else none) P (pushThen w s k) := by
  split
  · exact pushThen_of_le w s k ‹_›
  · have hsp : s.sp < s.cfg.len := Nat.lt_of_not_le ‹_›
    rw [pushThen_of_lt w s k hsp]
    exact hk hsp

theorem Checked.popThen {s : State} {k : Word → State → Result} {P : State → Prop}
    (hk : s.cfg.stackBase < s.sp → s.sp ≤ s.cfg.len →
      Checked s none P (k (Memory.read s.mem (s.sp - 1)) s.dropTop)) :
    Checked s (if s.sp ≤ s.cfg.stackBase then some ⟨.stackUnderflow, s.sp, s.ip⟩ else none) P (popThen s k) := by
  rcases popThen_cases s k with ⟨hle, e⟩ | ⟨hlt, hlen, e⟩ | ⟨hlt, _, e⟩ <;> rw [e]
  · rw [if_pos hle]
    rfl
  · rw [if_neg (by omega)]
    exact hk hlt hlen
  · rw [if_neg (by omega)]
    exact nofun

/-- All that stages 4 to 6 do: the fault of R65's list that is due, or else the instruction's effect. -/
theorem exec_checked (i : Instr) (s : State) : Checked s (s.checkFault i) (Effect i s) (exec i s) := by
  cases i with
  | call addr =>
    rw [exec_call]
    exact .pushThen fun hsp => .next ⟨hsp, rfl⟩
  | ret =>
    rw [exec_ret]
    exact .popThen fun hbase hlen => .next ⟨hbase, hlen, rfl⟩
  | cmp r1 c => exact .regThen fun q hq => .next ⟨q, hq, rfl⟩
  | jne offset => exact fun t h => execJne_cases h
  | push r => exact .regThen fun q hq => .pushThen fun hsp => .next ⟨q, hq, hsp, rfl⟩
  | pop r => exact .regThen fun q hq => .popThen fun hbase hlen => .next ⟨q, hq, hbase, hlen, rfl⟩
  | set r c => exact .regThen fun q hq => .next ⟨q, hq, rfl⟩
  | copy rSrc rDst => exact .regThen fun a ha => .regThen fun d hd => .next ⟨a, d, ha, hd, rfl⟩
  | add rDst rSrc => exact .regThen fun d hd => .regThen fun a ha => .next ⟨d, a, hd, ha, rfl⟩
  | dec r => exact .regThen fun q hq => .next ⟨q, hq, rfl⟩
  | print r => exact .regThen fun q hq => .next ⟨q, hq, rfl⟩
  | exit => exact .next rfl

theorem exec_of_checkFault {i : Instr} {s : State} {f : FaultRecord} (h : s.checkFault i = some f) :
    exec i s = .next (s.raise f.fcode f.fa f.fb) := by
  have hexec := exec_checked i s
  rwa [h] at hexec

/-- Stage 6 cannot fault (R64). -/
theorem Effect.of_checkFault_none {i : Instr} {s t : State} (h : s.checkFault i = none) (ht : exec i s = .next t) :
    Effect i s t := by
  have hexec := exec_checked i s
  rw [h] at hexec
  exact hexec t ht

/-- An effect ends in no fault: the status is as before, or EXIT's. -/
theorem Effect.safe {i : Instr} {s t : State} (h : Effect i s t) (hs : s.status = .running) : t.safe := by
  rcases h.writes.status_cases with hst | ⟨_, hst, _⟩ <;> rw [State.safe, hst]
  · rw [hs]
    nofun
  · nofun

/-! ### The fault due in stages 1 to 3 -/

/-- The record that a failed fetch writes (R98). -/
def State.fetchFault (s : State) : DecodeError → FaultRecord
  | .missing j => ⟨.fetchOutOfRange, s.ip + j, s.ip⟩
  | .unknownTag w => ⟨.decodeFault, w.toInt, s.ip⟩

theorem State.raiseFetch_eq (s : State) (e : DecodeError) :
    s.raiseFetch e = s.raise (s.fetchFault e).fcode (s.fetchFault e).fa (s.fetchFault e).fb := by
  cases e <;> rfl

theorem State.fetchWord_eq_none {s : State} {j : Nat} :
    s.fetchWord j = none ↔ ¬ (0 ≤ s.ip + j ∧ s.ip + j < s.cfg.len) :=
  s.memRead_eq_none _

/-- Behind a valid `ip` a fetched word is the word that stands there. -/
theorem State.fetchWord_eq_some {s : State} {j : Nat} {w : Word} (hip : 0 ≤ s.ip) :
    s.fetchWord j = some w ↔ s.ip + j < s.cfg.len ∧ s.wordAt j = w := by
  have hindex : (s.ip + j).toNat = s.ip.toNat + j := by omega
  rw [State.fetchWord, State.memRead_eq_some, hindex, State.wordAt]
  exact and_congr_left fun _ => and_iff_right (by omega)

/-- The tag fetch fails exactly outside `[0, LEN)` (R59). -/
theorem State.fetchWord_zero_eq_none {s : State} : s.fetchWord 0 = none ↔ s.ip < 0 ∨ s.cfg.len ≤ s.ip := by
  rw [State.fetchWord_eq_none]
  omega

theorem State.fetch_of_ip_out {s : State} (h : s.ip < 0 ∨ s.cfg.len ≤ s.ip) : s.fetch = .error (.missing 0) := by
  simp only [State.fetch, decodeWith, State.fetchWord_zero_eq_none.2 h]

section
variable {s : State} (hip : ¬ (s.ip < 0 ∨ s.cfg.len ≤ s.ip))
include hip

/-- Inside `[0, LEN)` the tag word is the one that stands at `ip` (R59). -/
theorem State.fetchWord_zero : s.fetchWord 0 = some (s.wordAt 0) :=
  (State.fetchWord_eq_some (by omega)).2 ⟨by omega, rfl⟩

theorem State.fetch_of_unknown (hop : s.opcodeAtIp = none) : s.fetch = .error (.unknownTag (s.wordAt 0)) := by
  rw [State.opcodeAtIp] at hop
  simp only [State.fetch, decodeWith, State.fetchWord_zero hip, hop]

theorem State.fetch_of_known {m : Opcode} (hop : s.opcodeAtIp = some m) : s.fetch = readOperands m s.fetchWord := by
  rw [State.opcodeAtIp] at hop
  simp only [State.fetch, decodeWith, State.fetchWord_zero hip, hop]

end

/-! ### R65's list -/

theorem find?_fst_map_snd_cons (b : Bool) (f : FaultRecord) (l : List (Bool × FaultRecord)) :
    (((b, f) :: l).find? (·.1)).map (·.2) = if b then some f else (l.find? (·.1)).map (·.2) := by
  cases b <;> rfl

/-- R65's list as a cascade. -/
theorem State.firstFault_eq (s : State) :
    s.firstFault =
      if s.ip < 0 ∨ s.cfg.len ≤ s.ip then some ⟨.fetchOutOfRange, s.ip, s.ip⟩
      else if s.opcodeAtIp = none then some ⟨.decodeFault, (s.wordAt 0).toInt, s.ip⟩
      else if 1 ≤ s.kindsAtIp.length ∧ s.cfg.len ≤ s.ip + 1 then some ⟨.fetchOutOfRange, s.ip + 1, s.ip⟩
      else if 2 ≤ s.kindsAtIp.length ∧ s.cfg.len ≤ s.ip + 2 then some ⟨.fetchOutOfRange, s.ip + 2, s.ip⟩
      else if s.kindsAtIp[0]? = some .registerIndex ∧ badIndex (s.wordAt 1) then
        some ⟨.registerIndex, (s.wordAt 1).toInt, s.ip⟩
      else if s.kindsAtIp[1]? = some .registerIndex ∧ badIndex (s.wordAt 2) then
        some ⟨.registerIndex, (s.wordAt 2).toInt, s.ip⟩
      else if (s.opcodeAtIp = some .call ∨ s.opcodeAtIp = some .push) ∧ s.cfg.len ≤ s.sp then
        some ⟨.stackOverflow, s.sp, s.ip⟩
      else if (s.opcodeAtIp = some .ret ∨ s.opcodeAtIp = some .pop) ∧ s.sp ≤ s.cfg.stackBase then
        some ⟨.stackUnderflow, s.sp, s.ip⟩
      else none := by
  simp only [State.firstFault, State.faultList, find?_fst_map_snd_cons, decide_eq_true_eq, List.find?_nil,
    Option.map_none]

theorem State.kindsAtIp_of_opcode {s : State} {m : Opcode} (h : s.opcodeAtIp = some m) : s.kindsAtIp = m.kinds := by
  simp only [State.kindsAtIp, h]

/-- Where the fetch fails, its fault is the first of R65's list. -/
theorem State.firstFault_of_fetch_error {s : State} {e : DecodeError} (h : s.fetch = .error e) :
    s.firstFault = some (s.fetchFault e) := by
  rw [State.firstFault_eq]
  by_cases hip : s.ip < 0 ∨ s.cfg.len ≤ s.ip
  · rw [State.fetch_of_ip_out hip] at h
    cases h
    simp [hip, State.fetchFault]
  rw [if_neg hip]
  cases hop : s.opcodeAtIp with
  | none =>
    rw [State.fetch_of_unknown hip hop] at h
    cases h
    rfl
  | some m =>
    rw [State.fetch_of_known hip hop] at h
    rw [State.kindsAtIp_of_opcode hop, if_neg nofun]
    rcases readOperands_missing h with ⟨rfl, hkinds, h1⟩ | ⟨rfl, hkinds, h1, h2⟩
    · rw [State.fetchWord_eq_none] at h1
      rw [if_pos ⟨hkinds, by omega⟩]
      rfl
    · rw [ne_eq, State.fetchWord_eq_none] at h1
      rw [State.fetchWord_eq_none] at h2
      rw [if_neg (by omega), if_pos ⟨hkinds, by omega⟩]
      rfl

theorem State.stackFault_eq (s : State) (m : Opcode) :
    s.stackFault m =
      if (some m = some .call ∨ some m = some .push) ∧ s.cfg.len ≤ s.sp then some ⟨.stackOverflow, s.sp, s.ip⟩
      else if (some m = some .ret ∨ some m = some .pop) ∧ s.sp ≤ s.cfg.stackBase then
        some ⟨.stackUnderflow, s.sp, s.ip⟩
      else none := by
  cases m <;> simp [State.stackFault]

theorem State.operandFault_cons (s : State) (later : Option FaultRecord) (kind : OperandKind) (w : Word)
    (ps : List (OperandKind × Word)) :
    s.operandFault later ((kind, w) :: ps) =
      if kind = .registerIndex ∧ badIndex w then some ⟨.registerIndex, w.toInt, s.ip⟩
      else s.operandFault later ps := by
  cases kind <;> simp [State.operandFault]

/-- Stage 4 as R65's list has it: over the first two words behind the tag. -/
theorem State.operandFault_zip (s : State) (later : Option FaultRecord) {kinds : List OperandKind} {ws : List Word}
    {word : Nat → Word} (hlen : ws.length = kinds.length) (htwo : kinds.length ≤ 2)
    (hword : ∀ j w, ws[j]? = some w → word (j + 1) = w) :
    s.operandFault later (kinds.zip ws) =
      if kinds[0]? = some .registerIndex ∧ badIndex (word 1) then some ⟨.registerIndex, (word 1).toInt, s.ip⟩
      else if kinds[1]? = some .registerIndex ∧ badIndex (word 2) then some ⟨.registerIndex, (word 2).toInt, s.ip⟩
      else later := by
  match kinds, ws with
  | [], [] => simp [State.operandFault]
  | [k], [a] =>
    obtain rfl := hword 0 a rfl
    simp [State.operandFault_cons, State.operandFault]
  | [k, k'], [a, b] =>
    obtain rfl := hword 0 a rfl
    obtain rfl := hword 1 b rfl
    simp [State.operandFault_cons, State.operandFault]

/-- Where an instruction is fetched, the first fault of R65's list is that of the checks. -/
theorem State.firstFault_of_fetch_ok {s : State} {i : Instr} (h : s.fetch = .ok i) :
    s.firstFault = s.checkFault i := by
  obtain ⟨w, hw, hm⟩ := opcode_of_decodeWith h
  obtain ⟨hip0, hiplen⟩ := State.fetchWord_zero_eq_some hw
  obtain ⟨_, rfl⟩ := (State.fetchWord_eq_some hip0).1 hw
  have hop : s.opcodeAtIp = some i.opcode := hm
  have hwords (j : Nat) (v : Word) (hj : i.operands[j]? = some v) :
      s.ip + (j + 1 : Nat) < s.cfg.len ∧ s.wordAt (j + 1) = v :=
    (State.fetchWord_eq_some hip0).1 (encode_of_decodeWith h (j + 1) v hj)
  have hinside (j : Nat) (hj : j < i.opcode.kinds.length) : s.ip + (j + 1 : Nat) < s.cfg.len := by
    rw [← i.operands_length] at hj
    exact (hwords j _ (List.getElem?_eq_getElem hj)).1
  rw [State.firstFault_eq, if_neg (by omega), hop, if_neg nofun, State.kindsAtIp_of_opcode hop,
    if_neg fun h1 => absurd (hinside 0 h1.1) (by omega), if_neg fun h2 => absurd (hinside 1 h2.1) (by omega),
    ← State.stackFault_eq,
    ← State.operandFault_zip s _ i.operands_length i.opcode.kinds_length_le fun j v hj => (hwords j v hj).2]
  rfl

/-! ### The whole step -/

/-- A step of a running machine raises the first fault of R65's list, with the payload of R98. -/
theorem step_of_firstFault {s : State} {f : FaultRecord} (hs : s.status = .running) (h : s.firstFault = some f) :
    step s = .next (s.raise f.fcode f.fa f.fb) := by
  cases hf : s.fetch with
  | error e =>
    rw [State.firstFault_of_fetch_error hf] at h
    cases h
    rw [step_of_fetch_error hs hf, State.raiseFetch_eq]
  | ok i =>
    rw [State.firstFault_of_fetch_ok hf] at h
    rw [step_of_fetch_ok hs hf, exec_of_checkFault h]

/-- Where no fault of R65's list applies, an instruction is fetched and its checks pass. -/
theorem State.fetch_of_firstFault_none {s : State} (h : s.firstFault = none) :
    ∃ i : Instr, s.fetch = .ok i ∧ s.checkFault i = none := by
  cases hf : s.fetch with
  | error e =>
    rw [State.firstFault_of_fetch_error hf] at h
    cases h
  | ok i => exact ⟨i, rfl, (State.firstFault_of_fetch_ok hf).symm.trans h⟩

/-- Then, with the stack pointer in its region, the instruction has its effect (R64). -/
theorem effect_of_firstFault_none {s : State} (h : s.firstFault = none) (hstack : s.stackOk) :
    ∃ (i : Instr) (t : State), s.fetch = .ok i ∧ exec i s = .next t ∧ Effect i s t := by
  obtain ⟨i, hi, hcheck⟩ := State.fetch_of_firstFault_none h
  obtain ⟨t, ht⟩ := exec_answers hstack i
  exact ⟨i, t, hi, ht, .of_checkFault_none hcheck ht⟩

/-- A decode fault is due only where the tag word is no tag: the checks raise none, nor does a word out of range. -/
theorem State.opcodeAtIp_of_decodeFault {s : State} {f : FaultRecord} (h : s.firstFault = some f)
    (hf : f.fcode = .decodeFault) : s.opcodeAtIp = none ∧ f = ⟨.decodeFault, (s.wordAt 0).toInt, s.ip⟩ := by
  cases hfetch : s.fetch with
  | error e =>
    rw [State.firstFault_of_fetch_error hfetch] at h
    obtain rfl := Option.some.inj h
    rcases decodeWith_eq_error hfetch with ⟨_, rfl⟩ | ⟨w, hw, hop, rfl⟩ | ⟨_, _, _, _, rfl | rfl⟩
    · cases hf
    · obtain ⟨_, rfl⟩ := (State.fetchWord_eq_some (State.fetchWord_zero_eq_some hw).1).1 hw
      exact ⟨hop, rfl⟩
    · cases hf
    · cases hf
  | ok i =>
    rw [State.firstFault_of_fetch_ok hfetch] at h
    exact absurd hf (State.checkFault_fcode_ne h)

/-- A point where the original was undefined ends the run, in a fault that is no `DecodeFault` (R112). -/
theorem step_of_originalUndefined {s : State} (hs : s.status = .running) (h : s.originalUndefined) :
    ∃ t : State, step s = .next t ∧ ¬ t.safe ∧ t.fault.fcode ≠ .decodeFault ∧
      ∀ (k : Nat) (u : State), runsTo k t u → u = t := by
  obtain ⟨f, hf, hcode⟩ := h
  have hend : (s.raise f.fcode f.fa f.fb).status ≠ .running := by simp
  refine ⟨_, step_of_firstFault hs hf, not_not_intro rfl, hcode, fun k u hrun => ?_⟩
  cases (run_of_not_running hend k).symm.trans hrun
  rfl

/-! ### Runs -/

theorem run_add_of_runsTo {m n : Nat} {s x : State} (h : runsTo m s x) :
    Host.Core.run Sys2Proof.core (m + n) s = Host.Core.run Sys2Proof.core n x := by
  induction m generalizing s with
  | zero =>
    cases (run_zero s).symm.trans h
    rw [Nat.zero_add]
  | succ m ih =>
    obtain ⟨s', hstep, hrun⟩ := run_succ_eq_next h
    rw [Nat.add_right_comm, run_succ_of_next hstep, ih hrun]

theorem run_of_step_eq_self {s : State} (h : step s = .next s) (k : Nat) : runsTo k s s := by
  induction k with
  | zero => exact run_zero s
  | succ k ih => exact (run_succ_of_next h).trans ih

/-- JNE jumps when the flag is false, from its own tag (R70). -/
theorem exec_jne_of_flag_false {s : State} (offset : Word) (hflag : s.flag = false) :
    exec (.jne offset) s = .next (s.jump (s.ip + offset.toInt)) := by
  change execJne offset s = _
  rw [execJne, hflag]
  rfl

theorem State.jump_self (s : State) : s.jump s.ip = s := rfl

end Sys2Proof.Machine
end

section
/-! The statements on the step cycle (`spec/40_step_cycle.md`), settled. -/

namespace Sys2Proof.Proofs

open Sys2Proof.Machine

/-- Settles O5: `step` answers with `exec` where the machine runs and the fetch succeeds. -/
theorem stepRunsFetchedInstruction : Obligations.StepRunsFetchedInstruction :=
  fun _ _ hs hi => step_of_fetch_ok hs hi

/-- Settles O7: the tag is a `MemRead` at `ip`, and its failure is what the step raises. -/
theorem tagFetchIsRangeChecked : Obligations.TagFetchIsRangeChecked := by
  refine fun s hs => ⟨fun hip => ?_, fun hip hlen => State.fetchWord_zero (by omega)⟩
  rw [step_of_fetch_error hs (State.fetch_of_ip_out hip)]
  simp only [State.raiseFetch, Int.natCast_zero, add_zero]

/-- Settles O9: stage 4 comes before stage 5, whose faults are the stack's, and before the effect, which keeps the
record. -/
theorem registerIndexCheckedInOperandOrder : Obligations.RegisterIndexCheckedInOperandOrder := by
  intro s i
  have hdue := s.operandFault_eq (s.stackFault i.opcode) (i.opcode.kinds.zip i.operands)
  split
  · next p hp =>
    rw [hp] at hdue
    exact exec_of_checkFault hdue
  · next hp =>
    intro t ht
    rw [hp] at hdue
    cases hstack : s.stackFault i.opcode with
    | none => exact .inl (Effect.of_checkFault_none (hdue.trans hstack) ht).writes.fault_eq
    | some f =>
      rw [exec_of_checkFault (hdue.trans hstack)] at ht
      cases ht
      rcases State.stackFault_fcode hstack with hf | hf
      · exact .inr (hf ▸ nofun)
      · exact .inr (hf ▸ nofun)

/-- Settles O10: a well-formed instruction passes stage 4, so stage 5 decides; the equalities are the inequalities at
the ends of the stack's region. -/
theorem stackBoundsChecked : Obligations.StackBoundsChecked := by
  refine fun s => ⟨fun i hi hop hsp => ?_, fun i hi hop hsp => ?_, fun hsize hstack => ?_⟩
  · refine exec_of_checkFault (f := ⟨.stackOverflow, s.sp, s.ip⟩) ((s.checkFault_of_wellFormed hi).trans ?_)
    rcases hop with e | e <;> rw [e] <;> exact if_pos hsp
  · refine exec_of_checkFault (f := ⟨.stackUnderflow, s.sp, s.ip⟩) ((s.checkFault_of_wellFormed hi).trans ?_)
    rcases hop with e | e <;> rw [e] <;> exact if_pos hsp
  · obtain ⟨hbase, _⟩ := hsize
    obtain ⟨hlo, hhi⟩ := hstack
    omega

/-- Settles O11: the fault that the stages raise is the first of R65's list, and past the checks there is only the
effect. -/
theorem stepRaisesFirstFaultOfList : Obligations.StepRaisesFirstFaultOfList := by
  refine fun s hs => ⟨fun f hf => step_of_firstFault hs hf, fun hnone hstack => ?_⟩
  obtain ⟨i, t, hi, ht, heffect⟩ := effect_of_firstFault_none hnone hstack
  exact ⟨t, (step_of_fetch_ok hs hi).trans ht, heffect.safe hs, heffect.writes.fault_eq⟩

/-- Settles O30: a jump by 0 goes to where it is, so the step answers the same state, and by induction so
does every run. -/
theorem selfJumpNeverEnds : Obligations.SelfJumpNeverEnds := by
  intro s hs hflag hT hat
  have hstep : step s = .next s := by
    rw [step_of_fetch_ok hs (State.fetch_of_holdsAtIp hT hat), exec_jne_of_flag_false 0 hflag,
      show (0 : Word).toInt = 0 from rfl, add_zero, State.jump_self]
  exact run_of_step_eq_self hstep

/-- Settles O31: an undefined point faults by O11, and a faulted state is the end of the run; at other points the first
fault is a decode fault or there is none. -/
theorem faultsWhereOriginalWasUndefined : Obligations.FaultsWhereOriginalWasUndefined := by
  refine ⟨fun s => step_of_originalUndefined, fun s hs hdef hstack => ?_,
    fun s t k hrun hend m x hm hx hxs hundef => ?_⟩
  · cases hfirst : s.firstFault with
    | none =>
      obtain ⟨i, t, hi, ht, heffect⟩ := effect_of_firstFault_none hfirst hstack
      exact .inl ⟨i, t, hi, step_of_fetch_ok hs hi, ht, heffect.safe hs⟩
    | some f =>
      have hcode : f.fcode = .decodeFault := not_not.1 fun hne => hdef ⟨f, hfirst, hne⟩
      obtain ⟨hop, rfl⟩ := State.opcodeAtIp_of_decodeFault hfirst hcode
      exact .inr ⟨hop, step_of_firstFault hs hfirst⟩
  · obtain ⟨y, hstep, hfaulted, hcode, hstays⟩ := step_of_originalUndefined hxs hundef
    obtain ⟨n, rfl⟩ : ∃ n, k = m + (n + 1) := ⟨k - m - 1, by omega⟩
    have hrest : runsTo n y t := by
      rwa [runsTo, run_add_of_runsTo hx, run_succ_of_next hstep] at hrun
    obtain rfl := hstays n t hrest
    rcases hend with h | h
    · exact hfaulted h
    · exact hcode h

end Sys2Proof.Proofs
end

section
/-! SUPPORT. The fetch faults of every instruction (R59, R61), and the state that CALL, RET, CMP, JNE and PUSH answer
when their checks pass (R67 to R70, R73). -/

namespace Sys2Proof.Machine

/-! ### The faults of the fetch -/

theorem State.firstFault_of_ip_out {s : State} (h : s.ip < 0 ∨ s.cfg.len ≤ s.ip) :
    s.firstFault = some ⟨.fetchOutOfRange, s.ip, s.ip⟩ := by
  rw [State.firstFault_eq, if_pos h]

/-- Where the memory ends before the operand word `j` of a known tag, that word is the first that is missing (R61). -/
theorem State.firstFault_of_operand_out {s : State} {m : Opcode} {j : Nat} (hop : s.opcodeAtIp = some m)
    (h1 : 1 ≤ j) (hj : j ≤ m.kinds.length) (hip : 0 ≤ s.ip) (hend : s.ip + j = s.cfg.len) :
    s.firstFault = some ⟨.fetchOutOfRange, s.ip + j, s.ip⟩ := by
  have htwo := m.kinds_length_le
  rw [State.firstFault_eq, if_neg (by omega), hop, if_neg nofun, State.kindsAtIp_of_opcode hop]
  obtain rfl | rfl : j = 1 ∨ j = 2 := by omega
  · exact if_pos ⟨hj, by omega⟩
  · exact (if_neg (by omega)).trans (if_pos ⟨hj, by omega⟩)

/-- The fetch faults do not depend on what the instruction does: the tag alone says how many words are read (R50). -/
theorem fetchFaultsOf_instr (i : Instr) : fetchFaultsOf i := by
  refine fun s hs hT => ⟨fun hip => step_of_firstFault hs (State.firstFault_of_ip_out hip),
    fun j h1 hj hip hend htag => ?_⟩
  have hop : s.opcodeAtIp = some i.opcode := (congrArg _ htag).trans (Tags.opcodeOf_tagOf hT _)
  rw [i.size_eq] at hj
  exact step_of_firstFault hs (State.firstFault_of_operand_out hop h1 (by omega) hip hend)

/-! ### Words that hold an index -/

theorem toInt_wrap32_of_range {n : Int} (hlo : -2 ^ 31 ≤ n) (hhi : n < 2 ^ 31) : (wrap32 n).toInt = n := by
  rw [toInt_wrap32]
  exact Int.bmod_eq_of_le (by omega) (by omega)

/-- Under R5's bounds the index after a CALL fits a word, also where the CALL ends at the last index (R67). -/
theorem toInt_returnAddress {s : State} (hip : 0 ≤ s.ip) (hend : s.ip + 1 < s.cfg.len)
    (hlen : s.cfg.len ≤ Config.maxLen) : (wrap32 (s.ip + 2)).toInt = s.ip + 2 := by
  unfold Config.maxLen at hlen
  exact toInt_wrap32_of_range (by omega) (by omega)

/-! ### The word on top of the stack -/

theorem State.read_push_same (s : State) (w : Word) : Memory.read (s.push w).mem s.sp = w :=
  Memory.read_write_same s.mem s.sp w

theorem State.keepsMemBut_push (s : State) (w : Word) : keepsMemBut s.sp s (s.push w) :=
  fun a ha => Memory.read_write_other s.mem s.sp a w ha

/-! ### Where the checks pass -/

theorem exec_call_of_lt {s : State} (addr : Word) (hsp : s.sp < s.cfg.len) :
    exec (.call addr) s = .next ((s.push (wrap32 (s.ip + 2))).jump addr.toInt) :=
  (exec_call addr s).trans (pushThen_of_lt _ s _ hsp)

theorem exec_push_of_lt {s : State} {r : Word} {q : Reg} (hq : r.toInt = q.num) (hsp : s.sp < s.cfg.len) :
    exec (.push r) s = .next ((s.push (s.regs.read q)).advance 2) :=
  (regThen_of_num r s _ q hq).trans (pushThen_of_lt _ s _ hsp)

/-- RET takes its target from the slot below `sp`, whatever put the word there (R68). -/
theorem exec_ret_of_slot {s : State} {a : Nat} {w : Word} (hsp : s.sp = a + 1) (hbase : s.cfg.stackBase ≤ a)
    (hlen : a < s.cfg.len) (hslot : Memory.read s.mem a = w) : exec .ret s = .next (s.dropTop.jump w.toInt) := by
  rw [exec_ret, popThen_of_lt s _ (by omega) (by omega), hsp, Nat.add_sub_cancel, hslot]
  rfl

theorem exec_cmp_of_num {s : State} {r1 : Word} {q : Reg} (c : Word) (hq : r1.toInt = q.num) :
    exec (.cmp r1 c) s = .next ((s.setFlag (compareFlag (s.regs.read q) c)).advance 3) :=
  regThen_of_num r1 s _ q hq

theorem compareFlag_eq_true {a b : Word} : compareFlag a b = true ↔ a = b := beq_iff_eq

/-- JNE falls through when the flag is true (R70). -/
theorem exec_jne_of_flag_true {s : State} (offset : Word) (hflag : s.flag = true) :
    exec (.jne offset) s = .next (s.advance 2) := by
  change execJne offset s = _
  rw [execJne, hflag]
  rfl

end Sys2Proof.Machine
end

section
/-! The statements on CALL, RET, CMP and JNE (`spec/41_call_compare_branch.md`), settled. -/

namespace Sys2Proof.Proofs

open Sys2Proof.Machine

/-! ## The four instructions -/

/-- Settles O12: below `LEN` CALL is a push of the return address and a jump, and each of the two keeps the other
fields. -/
theorem callPushesReturnAddressAndJumps : Obligations.CallPushesReturnAddressAndJumps := by
  refine fun addr => ⟨fun T hT => decode_encode_append hT (.call addr) [], fun s hsp => ?_,
    fun s hsp => (exec_call addr s).trans (pushThen_of_le _ s _ hsp), fetchFaultsOf_instr _⟩
  have hslot := s.read_push_same (wrap32 (s.ip + 2))
  refine ⟨_, exec_call_of_lt addr hsp, hslot, fun hip hend hlen => ?_, rfl, rfl, fun _ => rfl, rfl, rfl,
    s.keepsMemBut_push _, rfl, rfl, rfl⟩
  exact (congrArg BitVec.toInt hslot).trans (toInt_returnAddress hip hend hlen)

/-- Settles O13: above `STACK_BASE` RET drops the top and jumps to its word, and writes no memory. -/
theorem retPopsAndJumps : Obligations.RetPopsAndJumps := by
  refine ⟨fun T hT => decode_encode_append hT .ret [], fun s hbase hlen => ?_,
    fun s hsp => (exec_ret s).trans (popThen_of_le s _ hsp), fetchFaultsOf_instr _⟩
  have hsp : s.sp - 1 + 1 = s.sp := Nat.sub_add_cancel (by omega)
  exact ⟨_, exec_ret_of_slot hsp.symm (by omega) (by omega) rfl, hsp, rfl, fun _ => rfl, rfl, rfl, fun _ => rfl,
    rfl, rfl, rfl⟩

/-- Settles O14: with a good index CMP assigns the flag the comparison of the two words; stage 4 decides the rest. -/
theorem cmpAssignsFlag : Obligations.CmpAssignsFlag :=
  fun r1 c => ⟨fun _ hT => decode_encode_append hT (.cmp r1 c) [],
    fun _ _ hq => ⟨_, exec_cmp_of_num c hq, compareFlag_eq_true, rfl, fun _ => rfl, rfl, rfl, fun _ => rfl,
      rfl, rfl, rfl⟩,
    fun s hbad => regThen_of_bad r1 s _ hbad, fetchFaultsOf_instr _⟩

/-- Settles O15: by the two values of the flag, JNE is a jump or an advance, each of which moves `ip` only. -/
theorem jneJumpsWhenFlagFalse : Obligations.JneJumpsWhenFlagFalse := by
  refine fun offset => ⟨fun T hT => decode_encode_append hT (.jne offset) [], fun s => ?_, fetchFaultsOf_instr _⟩
  cases hflag : s.flag with
  | false =>
    exact ⟨_, exec_jne_of_flag_false offset hflag, fun _ => rfl, nofun, hflag, fun _ => rfl, rfl, rfl, fun _ => rfl,
      rfl, rfl, rfl⟩
  | true =>
    exact ⟨_, exec_jne_of_flag_true offset hflag, nofun, fun _ => rfl, hflag, fun _ => rfl, rfl, rfl, fun _ => rfl,
      rfl, rfl, rfl⟩

/-! ## Two instructions in turn -/

/-- Settles O47: the slot holds the return address that the CALL pushed, which RET reads back as the index it wraps. -/
theorem callThenRetReturnsAfterCall : Obligations.CallThenRetReturnsAfterCall := by
  intro s t u addr hip hend hmax hbase hlen hcall hcfg hsp hmem
  cases (exec_call_of_lt addr hlen).symm.trans hcall
  have hslot : Memory.read u.mem s.sp = wrap32 (s.ip + 2) := hmem.trans (s.read_push_same _)
  refine ⟨_, exec_ret_of_slot hsp (hcfg ▸ hbase) (hcfg ▸ hlen) hslot, toInt_returnAddress hip hend hmax, ?_⟩
  rw [State.jump_sp, State.dropTop_sp, hsp, Nat.add_sub_cancel]

/-- Settles O49: RET reads the slot that PUSH filled and lowers `sp` by what PUSH raised it; neither writes a
register. -/
theorem pushThenRetJumpsThroughRegister : Obligations.PushThenRetJumpsThroughRegister := by
  intro s t p r hp hbase hlen hpush
  cases (exec_push_of_lt hp hlen).symm.trans hpush
  exact ⟨_, exec_ret_of_slot rfl hbase hlen (s.read_push_same _), rfl, rfl, fun _ => rfl⟩

/-- Settles O50: CMP leaves the flag true exactly on equality, and JNE tests that flag. -/
theorem cmpThenJneFollowsComparison : Obligations.CmpThenJneFollowsComparison := by
  intro s t q r1 c offset hq hcmp
  cases (exec_cmp_of_num c hq).symm.trans hcmp
  by_cases heq : s.regs.read q = c
  · have hflag : compareFlag (s.regs.read q) c = true := compareFlag_eq_true.2 heq
    exact ⟨_, exec_jne_of_flag_true offset hflag, fun _ => ⟨hflag, rfl⟩, fun hne => absurd heq hne⟩
  · have hflag : compareFlag (s.regs.read q) c = false := Bool.eq_false_iff.2 (mt compareFlag_eq_true.1 heq)
    exact ⟨_, exec_jne_of_flag_false offset hflag, fun h => absurd h heq, fun _ => ⟨hflag, rfl⟩⟩

end Sys2Proof.Proofs
end

section
/-! SUPPORT. The state that POP answers when its checks pass (R74); that of PUSH is `exec_push_of_lt`. -/

namespace Sys2Proof.Machine

theorem State.keepsRegsBut_writeReg (s : State) (q : Reg) (w : Word) : keepsRegsBut q s (s.writeReg q w) :=
  fun p hp => Regs.read_write_other s.regs q p w hp

/-- POP takes its word from the slot below `sp`, whatever put it there (R74). -/
theorem exec_pop_of_slot {s : State} {r w : Word} {q : Reg} {a : Nat} (hq : r.toInt = q.num) (hsp : s.sp = a + 1)
    (hbase : s.cfg.stackBase ≤ a) (hlen : a < s.cfg.len) (hslot : Memory.read s.mem a = w) :
    exec (.pop r) s = .next ((s.dropTop.writeReg q w).advance 2) := by
  rw [exec_pop, regThen_of_num r s _ q hq, popThen_of_lt s _ (by omega) (by omega), hsp, Nat.add_sub_cancel, hslot]

end Sys2Proof.Machine
end

section
/-! The statements on PUSH and POP (`spec/42_stack.md`), settled. -/

namespace Sys2Proof.Proofs

open Sys2Proof.Machine

/-- Settles O16: with a good index and below `LEN` PUSH is a push of the register and an advance; stage 4 decides
before stage 5, so a bad index is raised whatever `sp` is. -/
theorem pushStoresRegister : Obligations.PushStoresRegister := by
  refine fun r => ⟨fun T hT => decode_encode_append hT (.push r) [], fun s q hq hsp => ?_,
    fun s hbad => regThen_of_bad r s _ hbad,
    fun s q hq hsp => (regThen_of_num r s _ q hq).trans (pushThen_of_le _ s _ hsp), fetchFaultsOf_instr _⟩
  exact ⟨_, exec_push_of_lt hq hsp, s.read_push_same _, rfl, rfl, fun _ => rfl, rfl, rfl, s.keepsMemBut_push _,
    rfl, rfl, rfl⟩

/-- Settles O17: with a good index and above `STACK_BASE` POP drops the top and writes its word to the register, and
writes no memory; stage 4 decides before stage 5. -/
theorem popLoadsRegister : Obligations.PopLoadsRegister := by
  refine fun r => ⟨fun T hT => decode_encode_append hT (.pop r) [], fun s q hq hbase hlen => ?_,
    fun s hbad => regThen_of_bad r s _ hbad,
    fun s q hq hsp => (regThen_of_num r s _ q hq).trans (popThen_of_le s _ hsp), fetchFaultsOf_instr _⟩
  have hsp : s.sp - 1 + 1 = s.sp := Nat.sub_add_cancel (by omega)
  exact ⟨_, exec_pop_of_slot hq hsp.symm (by omega) (by omega) rfl, hsp, Regs.read_write_same s.regs q _, rfl,
    s.dropTop.keepsRegsBut_writeReg q _, rfl, rfl, fun _ => rfl, rfl, rfl, rfl⟩

/-- Settles O48: the slot holds the word that the PUSH stored; POP reads it there, lowers `sp` by what PUSH raised it,
and writes no memory. -/
theorem pushThenPopRoundTrips : Obligations.PushThenPopRoundTrips := by
  intro s t u p q r w hp hq hbase hlen hpush hcfg hsp hmem
  cases (exec_push_of_lt hp hlen).symm.trans hpush
  have htop : u.sp = s.sp + 1 := hsp
  have hslot : Memory.read u.mem s.sp = s.regs.read p := hmem.trans (s.read_push_same _)
  refine ⟨_, exec_pop_of_slot hq htop (hcfg ▸ hbase) (hcfg ▸ hlen) hslot, Regs.read_write_same u.regs q _, ?_, hslot⟩
  rw [State.advance_sp, State.writeReg_sp, State.dropTop_sp, htop, Nat.add_sub_cancel]

end Sys2Proof.Proofs
end

section
/-! SUPPORT. Stage 4 over two register operands (R62), the frame of a register write, and the state that SET, COPY, ADD
and DEC answer when their checks pass (R77 to R80). -/

namespace Sys2Proof.Machine

/-! ### Two register operands -/

theorem regThen_regThen_of_num {v w : Word} {p q : Reg} (s : State) (k : Reg → Reg → Result) (hv : v.toInt = p.num)
    (hw : w.toInt = q.num) : regThen v s (fun a => regThen w s (k a)) = k p q :=
  (regThen_of_num v s _ p hv).trans (regThen_of_num w s _ q hw)

/-- The second operand's index is reported only where the first one passes (R62). -/
theorem regThen_regThen_of_second_bad {v w : Word} (s : State) (k : Reg → Reg → Result) (hv : ¬ badIndex v)
    (hw : badIndex w) :
    regThen v s (fun a => regThen w s (k a)) = .next (s.raise .registerIndex w.toInt s.ip) := by
  obtain ⟨p, hp⟩ := exists_reg_of_not_badIndex hv
  exact (regThen_of_num v s _ p hp).trans (regThen_of_bad w s _ hw)

/-! ### A register write and an advance -/

theorem State.toInt_read_writeReg_wrap32 (s : State) (q : Reg) (n : Int) :
    ((s.writeReg q (wrap32 n)).regs.read q).toInt = n.bmod (2 ^ 32) := by
  rw [State.writeReg_regs, Regs.read_write_same, toInt_wrap32]

/-- What the four register instructions leave unchanged: all but their register and `ip` (R77 to R80). -/
theorem State.writeReg_advance_frame (s : State) (q : Reg) (w : Word) (n : Nat) :
    keepsRegsBut q s ((s.writeReg q w).advance n) ∧ ((s.writeReg q w).advance n).sp = s.sp ∧
      ((s.writeReg q w).advance n).flag = s.flag ∧ ((s.writeReg q w).advance n).out = s.out ∧
      keepsMem s ((s.writeReg q w).advance n) ∧ keepsControl s ((s.writeReg q w).advance n) :=
  ⟨s.keepsRegsBut_writeReg q w, rfl, rfl, rfl, fun _ => rfl, rfl, rfl, rfl⟩

/-! ### Where the checks pass -/

theorem exec_set_of_num (s : State) {r : Word} {q : Reg} (c : Word) (hq : r.toInt = q.num) :
    exec (.set r c) s = .next ((s.writeReg q c).advance 3) :=
  regThen_of_num r s _ q hq

theorem exec_copy_of_num (s : State) {rSrc rDst : Word} {p q : Reg} (hp : rSrc.toInt = p.num)
    (hq : rDst.toInt = q.num) :
    exec (.copy rSrc rDst) s = .next ((s.writeReg q (s.regs.read p)).advance 3) :=
  regThen_regThen_of_num s _ hp hq

theorem exec_add_of_num (s : State) {rDst rSrc : Word} {q p : Reg} (hq : rDst.toInt = q.num)
    (hp : rSrc.toInt = p.num) :
    exec (.add rDst rSrc) s =
      .next ((s.writeReg q (wrap32 ((s.regs.read q).toInt + (s.regs.read p).toInt))).advance 3) :=
  regThen_regThen_of_num s _ hq hp

theorem exec_dec_of_num (s : State) {r : Word} {q : Reg} (hq : r.toInt = q.num) :
    exec (.dec r) s = .next ((s.writeReg q (wrap32 ((s.regs.read q).toInt - 1))).advance 2) :=
  regThen_of_num r s _ q hq

end Sys2Proof.Machine
end

section
/-! The statements on SET, COPY, ADD and DEC (`spec/43_register_ops.md`), settled. -/

namespace Sys2Proof.Proofs

open Sys2Proof.Machine

/-- Settles O18: with a good index SET is a write of the constant and an advance; stage 4 decides the rest. -/
theorem setWritesConstant : Obligations.SetWritesConstant :=
  fun r c => ⟨fun _ hT => decode_encode_append hT (.set r c) [],
    fun s q hq => ⟨_, exec_set_of_num s c hq, Regs.read_write_same s.regs q c, rfl,
      s.writeReg_advance_frame q c 3⟩,
    fun s hbad => regThen_of_bad r s _ hbad, fetchFaultsOf_instr _⟩

/-- Settles O19: the source is operand 1 and so is checked first; past both checks COPY writes the source's word to the
destination, also where the two are one register. -/
theorem copyMovesFirstIntoSecond : Obligations.CopyMovesFirstIntoSecond :=
  fun rSrc rDst => ⟨fun _ hT => decode_encode_append hT (.copy rSrc rDst) [],
    fun s p q hp hq => ⟨_, exec_copy_of_num s hp hq, Regs.read_write_same s.regs q (s.regs.read p), rfl,
      s.writeReg_advance_frame q _ 3⟩,
    fun s hbad => regThen_of_bad rSrc s _ hbad,
    fun s hok hbad => regThen_regThen_of_second_bad s _ hok hbad, fetchFaultsOf_instr _⟩

/-- Settles O20: the destination is operand 1 and so is checked first; past both checks ADD writes the wrapped exact sum
of the two words as they stood, also where the two are one register. -/
theorem addAddsSecondIntoFirst : Obligations.AddAddsSecondIntoFirst :=
  fun rDst rSrc => ⟨fun _ hT => decode_encode_append hT (.add rDst rSrc) [],
    fun s q _ hq hp => ⟨_, exec_add_of_num s hq hp, s.toInt_read_writeReg_wrap32 q _, rfl,
      s.writeReg_advance_frame q _ 3⟩,
    fun s hbad => regThen_of_bad rDst s _ hbad,
    fun s hok hbad => regThen_regThen_of_second_bad s _ hok hbad, fetchFaultsOf_instr _⟩

/-- Settles O21: with a good index DEC writes the wrapped exact difference and advances; no operation in it assigns the
flag. -/
theorem decSubtractsOne : Obligations.DecSubtractsOne :=
  fun r => ⟨fun _ hT => decode_encode_append hT (.dec r) [],
    fun s q hq => ⟨_, exec_dec_of_num s hq, s.toInt_read_writeReg_wrap32 q _, rfl,
      s.writeReg_advance_frame q _ 2⟩,
    fun s hbad => regThen_of_bad r s _ hbad, fetchFaultsOf_instr _⟩

end Sys2Proof.Proofs
end

section
/-! SUPPORT. The states that PRINT and EXIT answer (R84, R86), the frame of `halt`, and the end of a run in a terminal
state (R58). -/

namespace Sys2Proof.Machine

theorem exec_print_of_num (s : State) {r : Word} {q : Reg} (hq : r.toInt = q.num) :
    exec (.print r) s = .next ((s.emit (s.regs.read q)).advance 2) :=
  regThen_of_num r s _ q hq

theorem exec_exit (s : State) : exec .exit s = .next s.halt := rfl

/-- What `halt` leaves unchanged: all but the status (R8). -/
theorem State.halt_frame (s : State) :
    s.halt.ip = s.ip ∧ s.halt.fault = s.fault ∧ s.halt.cfg = s.cfg ∧ keepsRegs s s.halt ∧ s.halt.sp = s.sp ∧
      s.halt.flag = s.flag ∧ s.halt.out = s.out ∧ keepsMem s s.halt :=
  ⟨rfl, rfl, rfl, fun _ => rfl, rfl, rfl, rfl, fun _ => rfl⟩

theorem State.halt_not_running (s : State) : s.halt.status ≠ .running := by
  rw [State.halt_status]
  nofun

/-- A run from a terminal state ends in no other state (R58). -/
theorem eq_of_runsTo_of_not_running {s t : State} {k : Nat} (hs : s.status ≠ .running) (h : runsTo k s t) : t = s := by
  cases (run_of_not_running hs k).symm.trans h
  rfl

end Sys2Proof.Machine
end

section
/-! The statements on PRINT and EXIT (`spec/44_system.md`), settled. -/

namespace Sys2Proof.Proofs

open Sys2Proof.Machine

/-- Settles O22: with a good index PRINT emits the register's word and advances; stage 4 decides before anything is
emitted. -/
theorem printAppendsRegister : Obligations.PrintAppendsRegister :=
  fun r => ⟨fun _ hT => decode_encode_append hT (.print r) [],
    fun s q hq => ⟨_, exec_print_of_num s hq, s.emit_out (s.regs.read q), rfl, fun _ => rfl, rfl, rfl, fun _ => rfl,
      rfl, rfl, rfl⟩,
    fun s hbad => regThen_of_bad r s _ hbad, fetchFaultsOf_instr _⟩

/-- Settles O23: EXIT has no check to pass, so it halts in every state; the state it leaves is terminal, and no run
leads out of a terminal state. -/
theorem exitHaltsInPlace : Obligations.ExitHaltsInPlace := by
  refine ⟨fun T hT => decode_encode_append hT .exit [], fun s => ?_, fetchFaultsOf_instr _⟩
  obtain ⟨hip, hfault, hcfg, hregs, hsp, hflag, hout, hmem⟩ := s.halt_frame
  exact ⟨_, exec_exit s, s.halt_status, hip, hfault, hcfg, hregs, hsp, hflag, hout, hmem,
    fun _ _ => eq_of_runsTo_of_not_running s.halt_not_running⟩

end Sys2Proof.Proofs
end

section
/-! SUPPORT. The ports (R88 to R96): the transactions of a step as lists, the values among them that leave by the output
port, the words of memory below `LEN`, and the host's moves by phase. -/

namespace Sys2Proof.Machine

/-! ### The kinds of transactions -/

/-- The value of a transaction of the output port (R92). -/
def Transaction.output? : Transaction → Option Word
  | .output v => some v
  | .read _ _ => none
  | .write _ _ => none

/-- Whether a transaction is an access of the memory port (R90). -/
def Transaction.onMemory : Transaction → Bool
  | .output _ => false
  | .read _ _ => true
  | .write _ _ => true

@[simp] theorem State.readsOf_length (s : State) (n : Nat) : (s.readsOf n).length = n := by
  rw [State.readsOf, List.length_map, List.length_range]

theorem State.readsOf_succ (s : State) (n : Nat) : s.readsOf (n + 1) = s.readsOf n ++ [s.readAt n] := by
  simp only [State.readsOf, List.range_succ, List.map_append, List.map_cons, List.map_nil]

theorem State.readsOf_outputs (s : State) (n : Nat) : (s.readsOf n).filterMap Transaction.output? = [] := by
  rw [State.readsOf, List.filterMap_map]
  exact List.filterMap_eq_nil_iff.2 fun _ _ => rfl

theorem State.readsOf_onMemory (s : State) (n : Nat) : (s.readsOf n).filter Transaction.onMemory = s.readsOf n := by
  rw [State.readsOf, List.filter_map]
  exact congrArg _ (List.filter_eq_self.2 fun _ _ => rfl)

/-! ### The reads of stages 1 to 3 (R91) -/

theorem State.fetchRead_of_lt {s : State} {j : Nat} (hip : 0 ≤ s.ip) (hj : s.ip + j < s.cfg.len) :
    s.fetchRead j = [s.readAt j] := by
  have hindex : (s.ip + j).toNat = s.ip.toNat + j := by omega
  simp only [State.fetchRead, (State.fetchWord_eq_some hip).2 ⟨hj, rfl⟩, State.readAt, hindex]

theorem State.fetchRead_of_le {s : State} {j : Nat} (hj : s.cfg.len ≤ s.ip + j) : s.fetchRead j = [] := by
  have hnone : s.fetchWord j = none := State.fetchWord_eq_none.2 (by omega)
  simp only [State.fetchRead, hnone]

/-- Of the words asked for, those below `LEN` are read (R61, R90). -/
theorem State.flatMap_fetchRead {s : State} (hip : 0 ≤ s.ip) (n : Nat) :
    (List.range n).flatMap s.fetchRead = s.readsOf (min n (s.cfg.len - s.ip).toNat) := by
  induction n with
  | zero => rw [Nat.zero_min]; rfl
  | succ n ih =>
    rw [List.range_succ, List.flatMap_append, ih, List.flatMap_singleton]
    by_cases hn : s.ip + n < s.cfg.len
    · rw [State.fetchRead_of_lt hip hn, Nat.min_eq_left (by omega), Nat.min_eq_left (by omega), State.readsOf_succ]
    · rw [State.fetchRead_of_le (by omega), List.append_nil, Nat.min_eq_right (by omega), Nat.min_eq_right (by omega)]

/-- The words of a fetched instruction lie below `LEN` (R61). -/
theorem State.ip_add_size_le_of_fetch_ok {s : State} {i : Instr} (h : s.fetch = .ok i) :
    s.ip + i.size ≤ s.cfg.len := by
  have hlast : i.size - 1 < (encode s.cfg.tags i).length := by
    rw [encode_length, Instr.size]
    omega
  obtain ⟨hlt, _⟩ := (State.fetchWord_eq_some (State.ip_range_of_fetch_ok h).1).1
    (encode_of_decodeWith h _ _ (List.getElem?_eq_getElem hlast))
  rw [encode_length] at hlast
  omega

/-- A successful fetch reads the words of its instruction. -/
theorem State.fetchReads_of_fetch_ok {s : State} {i : Instr} (h : s.fetch = .ok i) :
    s.fetchReads = s.readsOf i.size := by
  obtain ⟨w, hw, hm⟩ := opcode_of_decodeWith h
  have hend := State.ip_add_size_le_of_fetch_ok h
  rw [State.fetchReads_of_known hw hm, ← i.size_eq, State.flatMap_fetchRead (State.ip_range_of_fetch_ok h).1,
    Nat.min_eq_left (by omega)]

/-- A fetch that misses a word has read the words before it. -/
theorem State.fetchReads_of_fetch_missing {s : State} {j : Nat} (h : s.fetch = .error (.missing j)) :
    j ≤ 2 ∧ s.fetchReads = s.readsOf j := by
  by_cases hip : s.ip < 0 ∨ s.cfg.len ≤ s.ip
  · rw [State.fetch_of_ip_out hip] at h
    cases h
    exact ⟨by decide, State.fetchReads_of_missing (State.fetchWord_zero_eq_none.2 hip)⟩
  cases hop : s.opcodeAtIp with
  | none =>
    rw [State.fetch_of_unknown hip hop] at h
    cases h
  | some m =>
    rw [State.fetch_of_known hip hop] at h
    rw [State.fetchReads_of_known (State.fetchWord_zero hip) hop, State.flatMap_fetchRead (by omega)]
    rcases readOperands_missing h with ⟨⟨⟩, hkinds, h1⟩ | ⟨⟨⟩, hkinds, h1, h2⟩
    · rw [State.fetchWord_eq_none] at h1
      exact ⟨by decide, congrArg s.readsOf (by omega)⟩
    · rw [ne_eq, State.fetchWord_eq_none] at h1
      rw [State.fetchWord_eq_none] at h2
      exact ⟨by decide, congrArg s.readsOf (by omega)⟩

/-- A fetch that finds no tag has read the tag word. -/
theorem State.fetchReads_of_fetch_unknown {s : State} {w : Word} (h : s.fetch = .error (.unknownTag w)) :
    s.fetchReads = s.readsOf 1 := by
  rcases decodeWith_eq_error h with ⟨_, e⟩ | ⟨v, hv, hop, _⟩ | ⟨_, _, _, _, e | e⟩
  · cases e
  · obtain ⟨hip, hlen⟩ := State.fetchWord_zero_eq_some hv
    rw [State.fetchReads_of_unknown hv hop, State.fetchRead_of_lt hip (by omega)]
    rfl
  · cases e
  · cases e

/-! ### The accesses of stage 6 (R91, R92) -/

theorem State.pushAccess_of_lt {s : State} (w : Word) (h : s.sp < s.cfg.len) : s.pushAccess w = [.write s.sp w] :=
  if_pos h

theorem State.pushAccess_of_le {s : State} (w : Word) (h : s.cfg.len ≤ s.sp) : s.pushAccess w = [] :=
  if_neg (by omega)

theorem State.popAccess_of_lt {s : State} (h : s.cfg.stackBase < s.sp) (hl : s.sp ≤ s.cfg.len) :
    s.popAccess = [.read (s.sp - 1) (Memory.read s.mem (s.sp - 1))] := by
  simp only [State.popAccess, if_pos h, s.memRead_nat (s.sp - 1) (by omega)]

theorem State.popAccess_of_le {s : State} (h : s.sp ≤ s.cfg.stackBase) : s.popAccess = [] :=
  if_neg (by omega)

section
variable {s : State} {r : Word} {q : Reg} (hq : r.toInt = q.num)
include hq

theorem executeAccess_push_of_num : executeAccess (.push r) s = s.pushAccess (s.regs.read q) := by
  simp only [executeAccess, (Reg.ofWord?_eq_some r q).2 hq]

theorem executeAccess_pop_of_num : executeAccess (.pop r) s = s.popAccess := by
  simp only [executeAccess, (Reg.ofWord?_eq_some r q).2 hq]

theorem executeAccess_print_of_num : executeAccess (.print r) s = [.output (s.regs.read q)] := by
  simp only [executeAccess, (Reg.ofWord?_eq_some r q).2 hq]

end

theorem executeAccess_of_badIndex {s : State} {i : Instr} {r : Word} (hi : i = .push r ∨ i = .pop r ∨ i = .print r)
    (hr : badIndex r) : executeAccess i s = [] := by
  rcases hi with rfl | rfl | rfl <;> simp only [executeAccess, (Reg.ofWord?_eq_none r).2 hr]

/-- An instruction that fails a check has no access of its own: the checks come first (R64, R65). -/
theorem executeAccess_of_checkFault {s : State} {i : Instr} {f : FaultRecord} (h : s.checkFault i = some f) :
    executeAccess i s = [] := by
  have le_of_due {a b : Nat} {g : FaultRecord} (h : (if a ≤ b then some g else none) = some f) : a ≤ b := by
    split at h
    · assumption
    · cases h
  cases i with
  | call addr => exact State.pushAccess_of_le _ (le_of_due h)
  | ret => exact State.popAccess_of_le (le_of_due h)
  | push r =>
    by_cases hr : badIndex r
    · exact executeAccess_of_badIndex (.inl rfl) hr
    · obtain ⟨q, hq⟩ := exists_reg_of_not_badIndex hr
      rw [executeAccess_push_of_num hq]
      exact State.pushAccess_of_le _ (le_of_due ((if_neg hr).symm.trans h))
  | pop r =>
    by_cases hr : badIndex r
    · exact executeAccess_of_badIndex (.inr (.inl rfl)) hr
    · obtain ⟨q, hq⟩ := exists_reg_of_not_badIndex hr
      rw [executeAccess_pop_of_num hq]
      exact State.popAccess_of_le (le_of_due ((if_neg hr).symm.trans h))
  | print r =>
    by_cases hr : badIndex r
    · exact executeAccess_of_badIndex (.inr (.inr rfl)) hr
    · cases (if_neg hr).symm.trans h
  | cmp | jne | set | copy | add | dec | exit => rfl

/-- Of the instructions only PRINT uses the output port (R92). -/
theorem executeAccess_outputs_of_not_print {s : State} {i : Instr} (hi : ∀ r, i ≠ .print r) :
    (executeAccess i s).filterMap Transaction.output? = [] := by
  refine List.filterMap_eq_nil_iff.2 fun x hx => ?_
  cases x with
  | read | write => rfl
  | output v =>
    cases i with
    | call addr => cases (State.mem_pushAccess.1 hx).2
    | ret =>
      obtain ⟨_, _, _, e⟩ := State.mem_popAccess.1 hx
      cases e
    | push r =>
      rw [executeAccess] at hx
      cases hq : Reg.ofWord? r <;> simp [hq, State.mem_pushAccess] at hx
    | pop r =>
      rw [executeAccess] at hx
      cases hq : Reg.ofWord? r <;> simp [hq, State.mem_popAccess] at hx
    | print r => exact absurd rfl (hi r)
    | cmp | jne | set | copy | add | dec | exit => cases hx

/-- Of the effects only PRINT's emits (R26). -/
theorem Writes.out_of_not_print {i : Instr} {s t : State} (h : Writes i s t) (hi : ∀ r, i ≠ .print r) :
    t.out = s.out := by
  cases h with
  | output r q n hprint hq => exact absurd hprint (hi r)
  | _ => rfl

/-- What stage 6 emits is what it puts on the output port. -/
theorem Effect.out_eq {i : Instr} {s t : State} (h : Effect i s t) :
    t.out = s.out ++ (executeAccess i s).filterMap Transaction.output? := by
  by_cases hprint : ∃ r, i = .print r
  · obtain ⟨r, rfl⟩ := hprint
    obtain ⟨q, hq, rfl⟩ := h
    rw [executeAccess_print_of_num hq]
    rfl
  · have hi : ∀ r, i ≠ .print r := not_exists.1 hprint
    rw [executeAccess_outputs_of_not_print hi, List.append_nil, h.writes.out_of_not_print hi]

/-! ### The transactions of a whole step -/

theorem State.transactions_of_not_running {s : State} (hs : s.status ≠ .running) : s.transactions = [] := by
  unfold State.transactions
  split
  · exact absurd ‹_› hs
  · rfl
  · rfl

theorem State.transactions_of_fetch_error {s : State} {e : DecodeError} (hs : s.status = .running)
    (h : s.fetch = .error e) : s.transactions = s.fetchReads := by
  simp only [State.transactions, hs, h, List.append_nil]

/-- The reads of the fetched words, then what the instruction does of its own. -/
theorem State.transactions_of_fetch_ok {s : State} {i : Instr} (hs : s.status = .running) (h : s.fetch = .ok i) :
    s.transactions = s.readsOf i.size ++ executeAccess i s := by
  simp only [State.transactions, hs, h, State.fetchReads_of_fetch_ok h]

/-- A failed fetch has read words in ascending order from `ip` on, and nothing else. -/
theorem State.exists_fetchReads_of_fetch_error {s : State} {e : DecodeError} (h : s.fetch = .error e) :
    ∃ n, s.fetchReads = s.readsOf n := by
  cases e with
  | missing j => exact ⟨j, (State.fetchReads_of_fetch_missing h).2⟩
  | unknownTag w => exact ⟨1, State.fetchReads_of_fetch_unknown h⟩

/-- How an instruction ends: past its checks, in its effect and safe, or in the fault of a check, with no access made. -/
theorem exec_ends {i : Instr} {s t : State} (hs : s.status = .running) (h : exec i s = .next t) :
    (Effect i s t ∧ t.safe) ∨ (CheckFault s t ∧ ¬ t.safe ∧ executeAccess i s = []) := by
  cases hcheck : s.checkFault i with
  | none =>
    have heffect := Effect.of_checkFault_none hcheck h
    exact .inl ⟨heffect, heffect.safe hs⟩
  | some f =>
    obtain rfl : s.raise f.fcode f.fa f.fb = t := by
      rw [exec_of_checkFault hcheck] at h
      cases h
      rfl
    refine .inr ⟨(exec_cases h).resolve_right fun heffect => heffect.safe hs rfl, not_not_intro rfl, ?_⟩
    exact executeAccess_of_checkFault hcheck

theorem CheckFault.fcode_cases {s t : State} (h : CheckFault s t) :
    t.fault.fcode = .registerIndex ∨ t.fault.fcode = .stackOverflow ∨ t.fault.fcode = .stackUnderflow := by
  rcases h with ⟨_, _, rfl⟩ | ⟨_, rfl⟩ | ⟨_, rfl⟩
  · exact .inl rfl
  · exact .inr (.inl rfl)
  · exact .inr (.inr rfl)

theorem CheckFault.out_eq {s t : State} (h : CheckFault s t) : t.out = s.out := by
  obtain ⟨_, _, _, rfl⟩ := h.eq_raise
  rfl

/-- The output grows by what the step puts on the output port (R92). -/
theorem step_out_eq {s t : State} (h : step s = .next t) :
    t.out = s.out ++ s.transactions.filterMap Transaction.output? := by
  rcases step_cases h with ⟨hs, rfl⟩ | ⟨hs, e, he, rfl⟩ | ⟨hs, i, hi, hexec⟩
  · rw [State.transactions_of_not_running hs, List.filterMap_nil, List.append_nil]
  · obtain ⟨n, hreads⟩ := State.exists_fetchReads_of_fetch_error he
    rw [State.transactions_of_fetch_error hs he, hreads, State.readsOf_outputs, List.append_nil, State.raiseFetch_eq,
      State.raise_out]
  · rw [State.transactions_of_fetch_ok hs hi, List.filterMap_append, State.readsOf_outputs, List.nil_append]
    rcases exec_ends hs hexec with ⟨heffect, _⟩ | ⟨hcheck, _, hnone⟩
    · exact heffect.out_eq
    · rw [hnone, List.filterMap_nil, List.append_nil, hcheck.out_eq]

/-- The accesses of a step that reads `n` words and then makes the given transactions. -/
theorem length_onMemory_of_transactions {s : State} {n : Nat} {l : List Transaction}
    (h : s.transactions = s.readsOf n ++ l) :
    (s.transactions.filter Transaction.onMemory).length = n + (l.filter Transaction.onMemory).length := by
  rw [h, List.filter_append, State.readsOf_onMemory, List.length_append, State.readsOf_length]

/-! ### A broken launch premise (R97) -/

theorem State.sp_eq_of_len_lt {s : State} (h : s.stackOk) (hlen : s.cfg.len < s.cfg.stackBase) :
    s.sp = s.cfg.stackBase := by
  obtain ⟨hlo, hhi⟩ := h
  omega

/-- With `LEN` below `STACK_BASE` no push and no pop is let through, so no step moves `sp`. -/
theorem step_sp_eq_of_len_lt {s t : State} (hstack : s.stackOk) (hlen : s.cfg.len < s.cfg.stackBase)
    (h : step s = .next t) : t.sp = s.sp := by
  have hsp := State.sp_eq_of_len_lt hstack hlen
  refine step_keeps_of_running (P := fun u => u.sp = s.sp) (fun hrun => ?_) rfl h
  rcases step_running_writes hrun h with ⟨f, a, _, rfl⟩ | ⟨i, _, hw⟩
  · rfl
  · rcases hw.sp_cases with e | ⟨_, hlt, _⟩ | ⟨_, hlt, _⟩
    · exact e
    · omega
    · omega

/-! ### Reset and the host's moves (R95, R96, R114, R116) -/

/-- `MemRead` at an index that is no negative number (R32). -/
theorem State.memRead_natCast (s : State) (a : Nat) :
    s.memRead (a : Int) = if a < s.cfg.len then some (Memory.read s.mem a) else none := by
  split
  · exact s.memRead_nat a ‹_›
  · exact (s.memRead_eq_none a).2 (by omega)

/-- Every word of an image loaded from index 0 reads back. -/
theorem Memory.read_load_zero {m : Memory} {image : List Word} {j : Nat} {v : Word} (h : image[j]? = some v) :
    Memory.read (Memory.load m 0 image) j = v := by
  rw [Memory.read_load, if_pos (Nat.zero_le j), Nat.sub_zero, h, Option.getD_some]

/-- While an execution runs the host neither writes the memory nor sees it (R95). -/
theorem State.host_of_running {s : State} (hs : s.status = .running) (a : Nat) (w : Word) :
    s.hostStore a w = none ∧ s.observe.mem = none := by
  simp only [State.hostStore, State.observe, hs, and_self]

/-- After the end of a run the host's store is its write (log 15). -/
theorem State.hostStore_of_not_running {s : State} (hs : s.status ≠ .running) {a : Nat} (w : Word)
    (ha : a < s.cfg.len) : s.hostStore a w = some (s.memWrite a w) := by
  unfold State.hostStore
  split
  · exact absurd ‹_› hs
  · exact if_pos ha
  · exact if_pos ha

/-- After the end of a run the memory is in the host's view (R96; log 16). -/
theorem State.observe_mem_of_not_running {s : State} (hs : s.status ≠ .running) : s.observe.mem = some s.mem := by
  simp only [State.observe]
  split
  · exact absurd ‹_› hs
  · rfl
  · rfl

end Sys2Proof.Machine
end

section
/-! The statements on the interfaces (`spec/50_interfaces.md`) and on reset (`spec/70_reset_and_hazards.md`), settled. -/

namespace Sys2Proof.Proofs

open Sys2Proof.Machine

/-! ## Transactions -/

/-- Settles O60: past its checks an instruction makes its own accesses after the reads of its words; a failed check
leaves those reads alone, and a failed fetch those before the word at which it fails. -/
theorem transactionListPerStep : Obligations.TransactionListPerStep := by
  intro s t hs h
  rcases step_cases h with ⟨hn, _⟩ | ⟨_, e, he, rfl⟩ | ⟨_, i, hi, hexec⟩
  · exact absurd hs hn
  · have htx := State.transactions_of_fetch_error hs he
    refine ⟨fun hsafe => absurd (State.raiseFetch_eq s e ▸ rfl) hsafe, fun _ => ?_⟩
    cases e with
    | missing j =>
      obtain ⟨hj, hreads⟩ := State.fetchReads_of_fetch_missing he
      exact ⟨j, hj, rfl, htx.trans hreads⟩
    | unknownTag w => exact htx.trans (State.fetchReads_of_fetch_unknown he)
  · have htx := State.transactions_of_fetch_ok hs hi
    rcases exec_ends hs hexec with ⟨heffect, hsafe⟩ | ⟨hcheck, hfaulted, hnone⟩
    · refine ⟨fun _ => ⟨i, hi, ?_⟩, fun hfaulted => absurd hfaulted hsafe⟩
      cases i with
      | call addr =>
        obtain ⟨hsp, _⟩ := heffect
        exact htx.trans (congrArg _ (State.pushAccess_of_lt _ hsp))
      | ret =>
        obtain ⟨hbase, hlen, _⟩ := heffect
        exact htx.trans (congrArg _ (State.popAccess_of_lt hbase hlen))
      | push r =>
        obtain ⟨q, hq, hsp, _⟩ := heffect
        rw [executeAccess_push_of_num hq, State.pushAccess_of_lt _ hsp] at htx
        exact ⟨q, hq, htx⟩
      | pop r =>
        obtain ⟨q, hq, hbase, hlen, _⟩ := heffect
        exact htx.trans (congrArg _ ((executeAccess_pop_of_num hq).trans (State.popAccess_of_lt hbase hlen)))
      | print r =>
        obtain ⟨q, hq, _⟩ := heffect
        exact ⟨q, hq, htx.trans (congrArg _ (executeAccess_print_of_num hq))⟩
      | cmp | jne | set | copy | add | dec | exit => exact htx.trans (List.append_nil _)
    · refine ⟨fun hsafe => absurd hsafe hfaulted, fun _ => ?_⟩
      rw [hnone, List.append_nil] at htx
      rcases hcheck.fcode_cases with hcode | hcode | hcode <;> rw [hcode] <;> exact ⟨i, hi, htx⟩

/-- Settles O59: the accesses in the rows of O60, counted. -/
theorem transactionCountPerInstruction : Obligations.TransactionCountPerInstruction := by
  intro s t i hs hi hexec hsafe
  obtain ⟨i', hi', hrow⟩ := (transactionListPerStep s t hs ((step_of_fetch_ok hs hi).trans hexec)).1 hsafe
  cases hi.symm.trans hi'
  cases i with
  | call | ret | pop => exact length_onMemory_of_transactions hrow
  | push | print =>
    obtain ⟨q, _, htx⟩ := hrow
    exact length_onMemory_of_transactions htx
  | cmp | jne | set | copy | add | dec | exit =>
    exact length_onMemory_of_transactions (hrow.trans (List.append_nil _).symm)

/-- Settles O58: the write of a step is its push, which is also all that changes the memory; the output port carries what
PRINT emits. -/
theorem transactionsAccountForEffects : Obligations.TransactionsAccountForEffects := by
  refine fun s t h => ⟨fun a w => step_read_of_write h, fun a hne => ?_, ?_⟩
  · exact not_forall_not.1 fun hno => hne (step_read_of_no_write h hno)
  · exact step_out_eq h

/-! ## Launch, reset and the host -/

/-- Settles O28: the stack pointer can only be at `STACK_BASE`, where the bounds of O10 refuse pushes and pops. -/
theorem brokenPremiseStaysInRange : Obligations.BrokenPremiseStaysInRange := by
  intro s hstack hlen
  have hsp := State.sp_eq_of_len_lt hstack hlen
  obtain ⟨hoverflow, hunderflow, _⟩ := stackBoundsChecked s
  obtain ⟨t, ht⟩ := step_answers hstack
  exact ⟨fun i hi hop => hoverflow i hi hop (by omega), fun i hi hop => hunderflow i hi hop (by omega), t, ht,
    step_sp_eq_of_len_lt hstack hlen ht⟩

/-- Settles O55: reset is a release over the storage as it stands, and what of it is in reach the new `LEN` decides. -/
theorem resetStartsAfreshOverTheSameMemory : Obligations.ResetStartsAfreshOverTheSameMemory := by
  intro s stackBase len
  refine ⟨release_read _ _, rfl, rfl, rfl, rfl, rfl, rfl, s.hostReset_cfg stackBase len, fun _ => rfl,
    (s.hostReset stackBase len).memRead_natCast, id, fun hwf hin => ⟨hwf, hin⟩, fun stackBase' len' a ha => ?_⟩
  exact State.memRead_nat _ a ha

/-- Settles O56: the host's moves go by the phase; under reset they are writes to the storage, which release takes as
the one thing that is not a reset value. -/
theorem hostTouchesMemoryOnlyOutsideARun : Obligations.HostTouchesMemoryOnlyOutsideARun := by
  refine fun s a w => ⟨fun hs => State.host_of_running hs a w,
    fun hs => ⟨State.observe_mem_of_not_running hs, fun ha => ?_⟩,
    fun _ _ b => Memory.read_write s.mem a b w, fun stackBase len j image v hv hj => ?_, fun _ _ _ => rfl⟩
  · exact ⟨_, State.hostStore_of_not_running hs w ha, s.memRead_memWrite_same w ha,
      fun b => Memory.read_write_other s.mem a b w⟩
  · exact (State.memRead_nat _ j hj).trans (congrArg some (Memory.read_load_zero hv))

end Sys2Proof.Proofs
end

section
/-! SUPPORT. Words that are no tag (R51, R53), and the frame of fault entry (R104). -/

namespace Sys2Proof

/-- 99 is outside the range of every admissible map (R51). -/
theorem Tags.tagOf_ne_99 {T : Tags} (hT : T.admissible) (m : Opcode) : T.tagOf m ≠ 99 :=
  fun h => hT.2 (List.mem_map.2 ⟨m, m.mem_all, h⟩)

end Sys2Proof

namespace Sys2Proof.Machine

/-- At a valid `ip` a word that is no tag fails the fetch by its value (R53, R60). -/
theorem State.fetch_of_no_tag {s : State} (hip : 0 ≤ s.ip) (hlen : s.ip < s.cfg.len)
    (h : ∀ m : Opcode, s.cfg.tags.tagOf m ≠ Memory.read s.mem s.ip.toNat) :
    s.fetch = .error (.unknownTag (Memory.read s.mem s.ip.toNat)) :=
  State.fetch_of_unknown (by omega) (Tags.opcodeOf_eq_none.2 h)

/-- What fault entry leaves unchanged: all but the status and the fault record (R104). -/
theorem State.raise_frame (s : State) (f : FaultCode) (a b : Int) :
    { s.raise f a b with status := s.status, fault := s.fault } = s := rfl

theorem State.raise_not_running (s : State) (f : FaultCode) (a b : Int) : (s.raise f a b).status ≠ .running := by
  rw [State.raise_status]
  nofun

/-- A step of a running machine that ends faulted is a fault entry at the index of its instruction (R98): no effect of
an instruction ends there. -/
theorem eq_raise_of_step_faulted {s t : State} (hs : s.status = .running) (h : step s = .next t)
    (hfaulted : t.status = .faulted) : ∃ (f : FaultCode) (a : Int), f ≠ .none ∧ t = s.raise f a s.ip := by
  rcases step_running_cases hs h with hraise | ⟨i, _, _, heffect⟩
  · exact hraise
  · exact absurd hfaulted (heffect.safe hs)

end Sys2Proof.Machine
end

section
/-! The statements on faults (`spec/60_exceptions.md`), settled. -/

namespace Sys2Proof.Proofs

open Sys2Proof.Machine

/-- Settles O8: the failed fetch has the fault and has made the one read; 99 is a case of it. -/
theorem unknownTagRaisesDecodeFault : Obligations.UnknownTagRaisesDecodeFault := by
  refine fun s hs hip hlen => ⟨fun hword => ?_, fun hT h99 => ?_⟩
  · have hfetch := State.fetch_of_no_tag hip hlen hword
    exact ⟨step_of_fetch_error hs hfetch,
      (State.transactions_of_fetch_error hs hfetch).trans (State.fetchReads_of_fetch_unknown hfetch)⟩
  · have hfetch := State.fetch_of_no_tag hip hlen (h99 ▸ Tags.tagOf_ne_99 hT)
    rw [h99] at hfetch
    exact step_of_fetch_error hs hfetch

/-- Settles O24: fault entry writes two fields, and no run leads out of the terminal state it leaves. -/
theorem faultEntryWritesOnlyStatusAndRecord : Obligations.FaultEntryWritesOnlyStatusAndRecord :=
  fun s f a b => ⟨s.raise_status f a b, rfl, rfl, rfl, s.raise_frame f a b,
    fun _ _ => eq_of_runsTo_of_not_running (s.raise_not_running f a b)⟩

/-- Settles O25: a step that faults is a fault entry, which O24 describes. -/
theorem faultsArePrecise : Obligations.FaultsArePrecise := by
  intro s t hs h hfaulted
  obtain ⟨f, a, hf, rfl⟩ := eq_raise_of_step_faulted hs h hfaulted
  obtain ⟨_, hcode, _, hfb, hframe, hend⟩ := faultEntryWritesOnlyStatusAndRecord s f a s.ip
  exact ⟨hframe, hcode ▸ hf, hfb, hend⟩

end Sys2Proof.Proofs
end
